-- ==== Sys2Proof/Word.lean ====
section
/-! DEFINITION. The machine's words: 16-bit registers, addresses and data (00_scope.md R6, 10_state.md R20, R24), and
24-bit instruction words and memory cells (30_encoding.md R80, 20_memory.md R51). -/

namespace Sys2Proof

/-- A 16-bit unsigned value: a register, a data word, an address, an operand field, a character code (R6, R8). -/
abbrev Word := BitVec 16

/-- A 24-bit value: an instruction word, or the value of a present memory cell (R51, R80). -/
abbrev InstrWord := BitVec 24

end Sys2Proof
end

