-- ==== Sys2Proof/Syntax.lean ====
section
/-! DEFINITION. The abstract syntax: the four addressing modes (30_encoding.md R86), the five registers (10_state.md R20), and
one constructor of `Instr` for each row of spec/opcode_table.json, in the table's order (R89). Every constructor carries the
mode and the operand field as the word has them: R122 passes both to the instruction's rule unchanged, HALT and NOP ignore
them (D27, log 19). JE and JNE are other names of `jz` and `jnz` (R90). -/

namespace Sys2Proof

/-- The addressing modes (R86). -/
inductive Mode where
  | immediate
  | register
  | registerIndirect
  | memory
deriving DecidableEq, Repr

/-- The general registers (R20). -/
inductive Reg where
  | A
  | B
  | C
  | D
  | E
deriving DecidableEq, Repr

/-- The 28 operations (R89): mode `m` and operand field `k` of the word. -/
inductive Instr where
  | halt (m : Mode) (k : Word)
  | load (m : Mode) (k : Word)
  | store (m : Mode) (k : Word)
  | add (m : Mode) (k : Word)
  | sub (m : Mode) (k : Word)
  | inc (m : Mode) (k : Word)
  | dec (m : Mode) (k : Word)
  | xor (m : Mode) (k : Word)
  | and (m : Mode) (k : Word)
  | or (m : Mode) (k : Word)
  | not (m : Mode) (k : Word)
  | shl (m : Mode) (k : Word)
  | shr (m : Mode) (k : Word)
  | nop (m : Mode) (k : Word)
  | push (m : Mode) (k : Word)
  | pop (m : Mode) (k : Word)
  | cmp (m : Mode) (k : Word)
  | jmp (m : Mode) (k : Word)
  | jz (m : Mode) (k : Word)
  | jnz (m : Mode) (k : Word)
  | jc (m : Mode) (k : Word)
  | jnc (m : Mode) (k : Word)
  | ja (m : Mode) (k : Word)
  | jae (m : Mode) (k : Word)
  | jb (m : Mode) (k : Word)
  | jbe (m : Mode) (k : Word)
  | read (m : Mode) (k : Word)
  | print (m : Mode) (k : Word)
deriving DecidableEq, Repr

/-- The mode of an instruction. -/
def Instr.mode : Instr → Mode
  | .halt m _ => m | .load m _ => m | .store m _ => m | .add m _ => m | .sub m _ => m | .inc m _ => m | .dec m _ => m
  | .xor m _ => m | .and m _ => m | .or m _ => m | .not m _ => m | .shl m _ => m | .shr m _ => m | .nop m _ => m
  | .push m _ => m | .pop m _ => m | .cmp m _ => m | .jmp m _ => m | .jz m _ => m | .jnz m _ => m | .jc m _ => m
  | .jnc m _ => m | .ja m _ => m | .jae m _ => m | .jb m _ => m | .jbe m _ => m | .read m _ => m | .print m _ => m

/-- The operand field of an instruction. -/
def Instr.operand : Instr → Word
  | .halt _ k => k | .load _ k => k | .store _ k => k | .add _ k => k | .sub _ k => k | .inc _ k => k | .dec _ k => k
  | .xor _ k => k | .and _ k => k | .or _ k => k | .not _ k => k | .shl _ k => k | .shr _ k => k | .nop _ k => k
  | .push _ k => k | .pop _ k => k | .cmp _ k => k | .jmp _ k => k | .jz _ k => k | .jnz _ k => k | .jc _ k => k
  | .jnc _ k => k | .ja _ k => k | .jae _ k => k | .jb _ k => k | .jbe _ k => k | .read _ k => k | .print _ k => k

end Sys2Proof
end

