-- ==== Sys2Proof/WellFormed.lean ====
section
/-! DEFINITION. Which instructions use only what the spec gives a meaning: the mode-support table (30_encoding.md R91) and the
reserved operand values (R93). A word that fails a check still decodes: an unsupported mode executes as a silent no-op
(40_execution_cycle.md R128), a reserved operand value raises InvalidRegister (R124). -/

namespace Sys2Proof

/-- How an instruction uses its mode field (R91). -/
inductive ModeUse where
  /-- HALT and NOP: the field is ignored -/
  | ignored
  /-- a value operand: all four modes -/
  | value
  /-- a location operand: modes 1, 2, 3 -/
  | location
  /-- a register operand: mode 1 only -/
  | registerOnly
deriving DecidableEq, Repr

/-- The rows of R91. -/
def Instr.modeUse : Instr → ModeUse
  | .halt _ _ => .ignored
  | .nop _ _ => .ignored
  | .load _ _ => .value
  | .add _ _ => .value
  | .sub _ _ => .value
  | .xor _ _ => .value
  | .and _ _ => .value
  | .or _ _ => .value
  | .cmp _ _ => .value
  | .jmp _ _ => .value
  | .jz _ _ => .value
  | .jnz _ _ => .value
  | .jc _ _ => .value
  | .jnc _ _ => .value
  | .ja _ _ => .value
  | .jae _ _ => .value
  | .jb _ _ => .value
  | .jbe _ _ => .value
  | .print _ _ => .value
  | .store _ _ => .location
  | .inc _ _ => .location
  | .dec _ _ => .location
  | .not _ _ => .location
  | .read _ _ => .location
  | .shl _ _ => .registerOnly
  | .shr _ _ => .registerOnly
  | .push _ _ => .registerOnly
  | .pop _ _ => .registerOnly

/-- Does this use of the mode field give the mode a meaning (S or "ignored" in R91)? -/
def ModeUse.supports : ModeUse → Mode → Bool
  | .ignored, _ => true
  | .value, _ => true
  | .location, .immediate => false
  | .location, _ => true
  | .registerOnly, .register => true
  | .registerOnly, _ => false

/-- The mode of `i` is one its opcode supports; if not, `i` is a silent no-op (R91, R128). -/
def Instr.modeSupported (i : Instr) : Bool := i.modeUse.supports i.mode

/-- The operand field names a register: identifiers 1 to 5 (10_state.md R21). -/
def namesRegister (k : Word) : Bool := decide (1 ≤ k.toNat) && decide (k.toNat ≤ 5)

/-- Does `i` read its operand field as a register identifier: a supported mode 1 or 2 (R93)? -/
def Instr.usesRegisterId (i : Instr) : Bool :=
  i.modeSupported && i.modeUse != .ignored && (i.mode == .register || i.mode == .registerIndirect)

/-- The operand field holds no reserved value (R93). -/
def Instr.operandLegal (i : Instr) : Bool := !i.usesRegisterId || namesRegister i.operand

/-- Well-formed: a supported mode and no reserved operand value. -/
def Instr.wellFormed (i : Instr) : Bool := i.modeSupported && i.operandLegal

end Sys2Proof
end

