-- ==== Sys2Proof/Decode.lean ====
section
/-! DEFINITION. The instruction codec (30_encoding.md Part A): the field cut (R81, R82), the opcode map (R89), decoding a
24-bit word to an instruction or a rejection by name (R92), then encoding (R83), and the interface `decodeTableWord`.
The opcode numbers 3 to 27 are decision D1 (PRESUMED, log 7). -/

namespace Sys2Proof

/-- Why a word is no instruction (R92). -/
inductive DecodeError where
  /-- The opcode field is 0 or 29 to 63: the dispatcher turns this into the fault IllegalOpcode (R245); safe, log 10. -/
  | illegalOpcode (opcode : BitVec 6)
deriving DecidableEq, Repr

/-- `w[23:18]` (R81). -/
def opcodeField (w : InstrWord) : BitVec 6 := w.extractLsb' 18 6

/-- `w[17:16]` (R81). -/
def modeField (w : InstrWord) : BitVec 2 := w.extractLsb' 16 2

/-- `w[15:0]` (R81), unsigned, taken as it is (R87). -/
def operandField (w : InstrWord) : Word := w.extractLsb' 0 16

/-- The mode a field value names (R86): 0 Immediate, 1 Register, 2 RegisterIndirect, 3 Memory. -/
def Mode.ofBits (b : BitVec 2) : Mode :=
  match b.toNat with
  | 0 => .immediate
  | 1 => .register
  | 2 => .registerIndirect
  | _ => .memory

/-- The field value of a mode (R86). -/
def Mode.toBits : Mode → BitVec 2
  | .immediate => 0#2
  | .register => 1#2
  | .registerIndirect => 2#2
  | .memory => 3#2

/-- The opcode map (R89), selecting on the opcode alone (R122); no operation for 0 and 29 to 63 (R92). -/
def instrOfOpcode (o : BitVec 6) (m : Mode) (k : Word) : Option Instr :=
  match o.toNat with
  | 1 => some (.halt m k)
  | 2 => some (.load m k)
  | 3 => some (.store m k)
  | 4 => some (.add m k)
  | 5 => some (.sub m k)
  | 6 => some (.inc m k)
  | 7 => some (.dec m k)
  | 8 => some (.xor m k)
  | 9 => some (.and m k)
  | 10 => some (.or m k)
  | 11 => some (.not m k)
  | 12 => some (.shl m k)
  | 13 => some (.shr m k)
  | 14 => some (.nop m k)
  | 15 => some (.push m k)
  | 16 => some (.pop m k)
  | 17 => some (.cmp m k)
  | 18 => some (.jmp m k)
  | 19 => some (.jz m k)
  | 20 => some (.jnz m k)
  | 21 => some (.jc m k)
  | 22 => some (.jnc m k)
  | 23 => some (.ja m k)
  | 24 => some (.jae m k)
  | 25 => some (.jb m k)
  | 26 => some (.jbe m k)
  | 27 => some (.read m k)
  | 28 => some (.print m k)
  | _ => none

/-- Decode a word: total on all 2^24 words (R82), an instruction or IllegalOpcode (R92). -/
def decode (w : InstrWord) : Except DecodeError Instr :=
  match instrOfOpcode (opcodeField w) (Mode.ofBits (modeField w)) (operandField w) with
  | some i => .ok i
  | none => .error (.illegalOpcode (opcodeField w))

/-- The opcode number of each operation (R89). -/
def Instr.opcode : Instr → BitVec 6
  | .halt _ _ => 1#6
  | .load _ _ => 2#6
  | .store _ _ => 3#6
  | .add _ _ => 4#6
  | .sub _ _ => 5#6
  | .inc _ _ => 6#6
  | .dec _ _ => 7#6
  | .xor _ _ => 8#6
  | .and _ _ => 9#6
  | .or _ _ => 10#6
  | .not _ _ => 11#6
  | .shl _ _ => 12#6
  | .shr _ _ => 13#6
  | .nop _ _ => 14#6
  | .push _ _ => 15#6
  | .pop _ _ => 16#6
  | .cmp _ _ => 17#6
  | .jmp _ _ => 18#6
  | .jz _ _ => 19#6
  | .jnz _ _ => 20#6
  | .jc _ _ => 21#6
  | .jnc _ _ => 22#6
  | .ja _ _ => 23#6
  | .jae _ _ => 24#6
  | .jb _ _ => 25#6
  | .jbe _ _ => 26#6
  | .read _ _ => 27#6
  | .print _ _ => 28#6

/-- `opcode ∥ mode ∥ operand`, the opcode most significant (R80, R81). -/
def packFields (o : BitVec 6) (m : BitVec 2) (k : Word) : InstrWord := o ++ m ++ k

/-- The word of an instruction (R83, R89). -/
def encode (i : Instr) : InstrWord := packFields i.opcode i.mode.toBits i.operand

/-- The assembler's Encoding Range error (R83). -/
inductive EncodeError where
  /-- A field value exceeds its bit width; raised by `encodeTriple` only, never by the machine; safe. -/
  | encodingRange
deriving DecidableEq, Repr

/-- The codec's `encode(o, m, k)` on numbers (R83): the word, or Encoding Range outside the field bounds. -/
def encodeTriple (o m k : Nat) : Except EncodeError InstrWord :=
  if o ≤ 63 ∧ m ≤ 3 ∧ k ≤ 65535 then .ok (BitVec.ofNat 24 (o * 262144 + m * 65536 + k))
  else .error .encodingRange

/-- The codec's `decode(w)` as numbers (R82): (opcode, mode, operand). -/
def decodeTriple (w : InstrWord) : Nat × Nat × Nat :=
  ((opcodeField w).toNat, (modeField w).toNat, (operandField w).toNat)

/-- The instruction word whose low `nbits` bits are those of `w` and whose other bits are 0; a word of spec/opcode_table.json
is one 24-bit cell, bit 0 its least significant (R7). -/
def tableWord (nbits w : Nat) : InstrWord := BitVec.ofNat 24 (w % 2 ^ nbits)

/-- The instruction the decoder reads from a word of spec/opcode_table.json; none where it refuses. -/
def decodeTableWord (nbits w : Nat) : Option Instr :=
  match decode (tableWord nbits w) with
  | .ok i => some i
  | .error _ => none

end Sys2Proof
end

