-- ==== Sys2Proof/Config.lean ====
section
/-! DEFINITION. The parameters of 00_scope.md R6. The two that R6 leaves OPEN are taken by the model as an argument: `Params`,
which every state carries and no step changes. Of the fixed ones, those that a reset takes stand here; the others stand where
a definition uses them: the carry rule's constants in Machine/Flags.lean, the stride in Machine/Ops.lean, the image limits in
Machine/Loader.lean. No rule of the spec leaves a value open with the machine going on, so there is no free value here. -/

namespace Sys2Proof.Config

/-- The OPEN parameters (R6). -/
structure Params where
  /-- `SP_INIT`: where the stack pointer starts (10_state.md R33) -/
  spInit : Word
  /-- `STACK_DEPTH`: how many values the stack can hold; none is "unbounded" (20_memory.md R61) -/
  stackDepth : Option Nat
deriving DecidableEq, Repr

/-- The defaults R6 recommends: DESIGN CHOICE, logs 5 and 6. -/
def defaultParams : Params where
  spInit := 0xFFFF#16
  stackDepth := none

/-- `RESET_PC` (R6): 0. -/
def resetPc : Word := 0#16

end Sys2Proof.Config
end

