-- ==== Sys2Proof/Machine/State.lean ====
section
/-! DEFINITION. The machine's whole state (10_state.md R20 to R39), the faults (60_exceptions.md R242), the refusals, and the
state right after reset (R39). Plain data. -/

namespace Sys2Proof.Machine

/-- The five fault names (60_exceptions.md R242): all that the STATUS port shows of a fault (10_state.md R37, R241). -/
inductive FaultName where
  | uninitializedMemoryAccess
  | stackUnderflow
  | illegalOpcode
  | invalidRegister
  | wideDataRead
deriving DecidableEq, Repr

/-- The run state (10_state.md R30). -/
inductive RunState where
  | running
  | halted
  | faulted (cause : FaultName)
deriving DecidableEq, Repr

/-- Main memory (20_memory.md R50 to R52): the present cells, (address, 24-bit value), addresses strictly rising. An address
not listed is an absent cell. Log 1. -/
abbrev Memory := List (Nat × InstrWord)

/-- The state of the machine (10_state.md; INVENTORY.md lists each field with its rule). -/
structure State where
  /-- the machine's open parameters (00_scope.md R6); no step changes them; logs 5 and 6 -/
  params : Config.Params
  /-- register A, the accumulator (R20) -/
  regA : Word
  /-- register B (R20) -/
  regB : Word
  /-- register C (R20) -/
  regC : Word
  /-- register D (R20) -/
  regD : Word
  /-- register E (R20) -/
  regE : Word
  /-- zero flag (R27) -/
  zf : Bool
  /-- carry flag (R27) -/
  cf : Bool
  /-- sign flag (R27) -/
  sf : Bool
  /-- program counter (R24) -/
  pc : Word
  /-- run state (R30), shown on the STATUS port (R37) -/
  run : RunState
  /-- main memory (R32, R50) -/
  mem : Memory
  /-- the stack, topmost element last (R32, R61, R62) -/
  stk : List Word
  /-- the bookkeeping stack pointer (R33) -/
  sp : Word
  /-- codes the character source delivers, next one first (R32, R34); log 3 -/
  cin : List Word
  /-- codes handed to the character sink, in order (R32, R35) -/
  cout : List Word
deriving DecidableEq, Repr

/-- The five faults (60_exceptions.md R242), each fatal (R240), with the info the spec writes after the name for a model's
diagnostics (R241): the hardware records only the name (log 22). -/
inductive Fault where
  /-- The cell at `a` is absent when fetched or read as data (R243): raised by the fetch, `val` and `locRead`. Safe: the
  machine the document describes aborts here too. -/
  | uninitializedMemoryAccess (a : Word)
  /-- POP in Register mode on an empty stack (R244). Safe: the document aborts here too. -/
  | stackUnderflow
  /-- The fetched word's opcode field is 0 or 29 to 63 (R245, D4): raised by the dispatcher. Safe, log 10. -/
  | illegalOpcode (pc : Word) (w : InstrWord)
  /-- The operand field names no register in a supported mode 1 or 2 (R246, D3): raised by `regOf`. Safe, log 9. -/
  | invalidRegister (k : Word)
  /-- A data read of a present cell whose value exceeds 65535 (R247, D6): raised by `val` and `locRead`. Safe, log 11. -/
  | wideDataRead (a : Word)
deriving DecidableEq, Repr

/-- Where the model gives no step. -/
inductive Refusal where
  /-- An instruction with no meaning yet, rejected in exec's arm by its mnemonic. Safe. No arm uses it. -/
  | notModelled (mnemonic : String)
  /-- PUSH on a stack that holds STACK_DEPTH values, in a machine whose STACK_DEPTH is set: the spec leaves the parameter open and
  gives a full stack no effect (D15). Raised by `pushOrStop`; never under the default. Safe, log 6. -/
  | stackDepthReached
  /-- A step asked of a machine that is Halted or Faulted: the spec gives it no successor (R30, R120). Raised by `step`.
  Safe, log 23. -/
  | noStep (run : RunState)
deriving DecidableEq, Repr

/-- What one instruction or one step answers. -/
abbrev Out := Host.Outcome State Fault Refusal

/-- The machine with parameters `p` right after reset with the empty image (R39, 70_reset_and_hazards.md R270, R272): registers and flags 0,
`pc` 0, every cell absent, stack empty, `sp` = SP_INIT, sink empty, Running. The character source is the environment's
and is empty here (DESIGN CHOICE, log 3); programs are loaded by `boot` (log 24). -/
def State.resetFor (p : Config.Params) : State where
  params := p
  regA := 0#16
  regB := 0#16
  regC := 0#16
  regD := 0#16
  regE := 0#16
  zf := false
  cf := false
  sf := false
  pc := Config.resetPc
  run := .running
  mem := []
  stk := []
  sp := p.spInit
  cin := []
  cout := []

/-- The machine right after reset, its open parameters at the defaults (logs 5 and 6). -/
def State.reset : State := State.resetFor Config.defaultParams

end Sys2Proof.Machine
end

