-- ==== Sys2Proof/Machine/Ops.lean ====
section
/-! DEFINITION. The named operations on the state: register access (10_state.md R20), memory cells and the access primitives
(20_memory.md R55 to R57), the stack port (R62, R63), the character ports (10_state.md R34, R35), the program counter
(R25), and the ways a step ends: falling through, a taken jump, a silent no-op, a wait, a halt, a fault
(40_execution_cycle.md R120, R128; 60_exceptions.md R240). There is no return from a fault (R252). -/

namespace Sys2Proof.Machine

/-! ### Registers -/

/-- `x[i]` (00_scope.md R9, 10_state.md R20). -/
def State.reg (s : State) : Reg → Word
  | .A => s.regA
  | .B => s.regB
  | .C => s.regC
  | .D => s.regD
  | .E => s.regE

/-- `x[i] <- v`: writes one register and no other (R20). -/
def State.setReg (s : State) (r : Reg) (v : Word) : State :=
  match r with
  | .A => { s with regA := v }
  | .B => { s with regB := v }
  | .C => { s with regC := v }
  | .D => { s with regD := v }
  | .E => { s with regE := v }

/-! ### Memory cells -/

/-- The cell at address `a`: none when absent (20_memory.md R50). -/
def Memory.read : Memory → Nat → Option InstrWord
  | [], _ => none
  | (b, w) :: rest, a => if b = a then some w else Memory.read rest a

/-- Make the cell at `a` present with value `v` (R57), keeping the addresses strictly rising. -/
def Memory.write : Memory → Nat → InstrWord → Memory
  | [], a, v => [(a, v)]
  | (b, w) :: rest, a, v =>
    if a < b then (a, v) :: (b, w) :: rest
    else if a = b then (a, v) :: rest
    else (b, w) :: Memory.write rest a v

/-- The canonical form: addresses strictly rising, each one of the 65536 addresses (R50). No entry can equal what an unlisted
address reads as, which is "absent" and no value. -/
abbrev Memory.wf (m : Memory) : Prop :=
  m.Pairwise (fun c d => c.1 < d.1) ∧ ∀ c ∈ m, c.1 < 65536

/-- The cell of state `s` at the 16-bit address `a`. -/
def State.cell (s : State) (a : Word) : Option InstrWord := s.mem.read a.toNat

/-- `MemRead(a, 24)`, the instruction fetch (R55). -/
def memFetch (a : Word) (s : State) : Except Fault InstrWord :=
  match s.cell a with
  | none => .error (.uninitializedMemoryAccess a)
  | some w => .ok w

/-- `MemRead(a, 16)`, the data read (R56): absent first, then wide (log 11). -/
def memRead (a : Word) (s : State) : Except Fault Word :=
  match s.cell a with
  | none => .error (.uninitializedMemoryAccess a)
  | some w => if 65535 < w.toNat then .error (.wideDataRead a) else .ok (w.setWidth 16)

/-- `MemWrite(a, 16, v)` (R57): the cell becomes present with `zext_24(v)`; never faults. -/
def memWrite (a v : Word) (s : State) : State :=
  { s with mem := s.mem.write a.toNat (v.setWidth 24) }

/-! ### The stack port -/

/-- `Push(v)` (R62): `v` becomes the last element, `sp` goes down by 2 modulo 65536. -/
def push (v : Word) (s : State) : State :=
  { s with stk := s.stk ++ [v], sp := s.sp - 2#16 }

/-- A further value fits the stack (`STACK_DEPTH`, 20_memory.md R61): always, where the depth is unbounded. -/
def State.hasRoom (s : State) : Bool :=
  match s.params.stackDepth with
  | none => true
  | some d => decide (s.stk.length < d)

/-- `Pop()` (R63): the last element, or StackUnderflow on an empty stack; `sp` goes up by 2 modulo 65536. -/
def pop (s : State) : Except Fault (Word × State) :=
  match s.stk.getLast? with
  | none => .error .stackUnderflow
  | some v => .ok (v, { s with stk := s.stk.dropLast, sp := s.sp + 2#16 })

/-! ### The character ports -/

/-- `CharIn()` (10_state.md R34): the next code and the state without it; none while no code is available. -/
def charIn (s : State) : Option (Word × State) :=
  match s.cin with
  | [] => none
  | c :: rest => some (c, { s with cin := rest })

/-- `CharOut(v)` (R35): append `v` to the sink; always accepted (log 26). -/
def charOut (v : Word) (s : State) : State := { s with cout := s.cout ++ [v] }

/-- The environment delivers one more character code (R34, R280). The port cannot carry a code above 65535: refused
(93_implementation_defined.md V14, log 26). -/
def State.offer (code : Nat) (s : State) : Option State :=
  if code ≤ 65535 then some { s with cin := s.cin ++ [BitVec.ofNat 16 code] } else none

/-! ### How a step ends -/

/-- `STRIDE` (00_scope.md R6): the distance between instruction slots. -/
def stride : Word := 3#16

/-- `pc <- t`. -/
def State.setPc (s : State) (t : Word) : State := { s with pc := t }

/-- `pc <- (pc + 3) mod 65536` (10_state.md R25; the wrap is D12, log 17). -/
def State.advance (s : State) : State := s.setPc (s.pc + stride)

/-- The rule falls through: the automatic advance (R120). -/
def fallThrough (s : State) : Out := .next s.advance

/-- A taken jump: `pc` is the target as it is, no advance (R25, R200). -/
def jumpTo (t : Word) (s : State) : Out := .next (s.setPc t)

/-- The silent no-op of an unsupported mode (40_execution_cycle.md R128, log 12): nothing but the advance. -/
def silentNoOp (s : State) : Out := fallThrough s

/-- READ with no character available (46_system_io.md R222, D16): the step has not completed; the machine stays Running at the
same instruction, nothing changed (log 4). -/
def awaitChar (s : State) : Out := .next s

/-- `run <- Halted` (R30, R220); `pc` is left as it is (log 18). -/
def enterHalted (s : State) : Out := .next { s with run := .halted }

/-- `raise F(info)` (60_exceptions.md R240): the run ends; the state is discarded (R241, log 22). -/
def raise (f : Fault) : Out := .fault f

/-- Go on with the value of a primitive, or raise the fault it answers: lines after a raise do not run (00_scope.md R10). -/
def orFault {α : Type} (x : Except Fault α) (f : α → Out) : Out :=
  match x with
  | .ok a => f a
  | .error e => raise e

/-- Push and fall through; a machine whose STACK_DEPTH is set and reached stops (log 6). -/
def pushOrStop (v : Word) (s : State) : Out :=
  if s.hasRoom then fallThrough (push v s) else .refused .stackDepthReached

/-- The name of a fault, all that STATUS shows of it (R37, R241). -/
def Fault.name : Fault → FaultName
  | .uninitializedMemoryAccess _ => .uninitializedMemoryAccess
  | .stackUnderflow => .stackUnderflow
  | .illegalOpcode _ _ => .illegalOpcode
  | .invalidRegister _ => .invalidRegister
  | .wideDataRead _ => .wideDataRead

end Sys2Proof.Machine
end

