-- ==== Sys2Proof/Machine/Flags.lean ====
section
/-! DEFINITION. The flag computation rule `Arith` and the raw results it is applied to (42_arithmetic.md R150 to R160), and its
ZF and SF half `Logic` (43_logic_shift.md R170). Arithmetic is on unbounded integers (00_scope.md R8). -/

namespace Sys2Proof.Machine

/-- `CARRY_THRESHOLD` (R160). -/
def carryThreshold : Int := 65535

/-- `CARRY_SUBTRAHEND` (R160): 65535, not 65536. -/
def carrySubtrahend : Int := 65535

/-- What `Arith` returns (R150). -/
structure ArithResult where
  res : Int
  cf : Bool
  zf : Bool
  sf : Bool
deriving DecidableEq, Repr

/-- The flags of a result (R150): ZF and SF from the unreduced `res` (R151, log 15). -/
def arithFlags (cf : Bool) (res : Int) : ArithResult where
  res := res
  cf := cf
  zf := decide (res = 0)
  sf := decide (32768 ≤ res % 65536)

/-- `Arith(raw)` (R150): above the threshold CF = 1 and the subtrahend is taken, once; else CF = 0 and the result is `raw`. -/
def arith (raw : Int) : ArithResult :=
  if carryThreshold < raw then arithFlags true (raw - carrySubtrahend) else arithFlags false raw

/-- The 16-bit value stored, `res mod 65536` (R151). -/
def ArithResult.stored (r : ArithResult) : Word := BitVec.ofInt 16 r.res

/-- ADD (R153). -/
def addRaw (a v : Word) : Int := (a.toNat : Int) + (v.toNat : Int)

/-- SUB and CMP (R154, R157): the unbounded three-term sum (D9, log 14). -/
def subRaw (a v : Word) : Int := (a.toNat : Int) + (65535 - (v.toNat : Int)) + 1

/-- INC (R155). -/
def incRaw (v : Word) : Int := (v.toNat : Int) + 1

/-- DEC (R156): a plain subtraction (D28, log 20). -/
def decRaw (v : Word) : Int := (v.toNat : Int) - 1

/-- SHL (43_logic_shift.md R176): the carry rule is applied to twice the value (D11, log 16). -/
def shlRaw (v : Word) : Int := 2 * (v.toNat : Int)

/-- The ZF part of `Logic(r)` (R170). -/
def logicZf (r : Word) : Bool := decide (r = 0#16)

/-- The SF part of `Logic(r)` (R170). -/
def logicSf (r : Word) : Bool := decide (32768 ≤ r.toNat)

/-- CF, ZF and SF overwritten by an arithmetic result (10_state.md R27, R28). -/
def State.setArithFlags (s : State) (r : ArithResult) : State := { s with cf := r.cf, zf := r.zf, sf := r.sf }

/-- ZF and SF overwritten from a logic result; CF untouched (R28, R170). -/
def State.setLogicFlags (s : State) (r : Word) : State := { s with zf := logicZf r, sf := logicSf r }

/-- `not16(v) = 65535 - v`, the complement within 16 bits (R171). -/
def not16 (v : Word) : Word := ~~~v

/-- `v div 2`: the logical shift right by one (R177). -/
def half (v : Word) : Word := v >>> 1

end Sys2Proof.Machine
end

