-- ==== Sys2Proof/Machine/Operands.lean ====
section
/-! DEFINITION. The operand primitives (40_execution_cycle.md R124 to R128): `Reg`, `Val`, `LocRead`, `LocWrite`, and the two
guards that make an unsupported mode a silent no-op. -/

namespace Sys2Proof.Machine

/-- `Reg(k)` (R124): identifiers 1 to 5 are A to E (D2, PRESUMED, log 8); any other raises InvalidRegister (D3, log 9). -/
def regOf (k : Word) : Except Fault Reg :=
  match k.toNat with
  | 1 => .ok .A
  | 2 => .ok .B
  | 3 => .ok .C
  | 4 => .ok .D
  | 5 => .ok .E
  | _ => .error (.invalidRegister k)

/-- `Val(m, k)` (R125). -/
def val (m : Mode) (k : Word) (s : State) : Except Fault Word :=
  match m with
  | .immediate => .ok k
  | .register =>
    match regOf k with
    | .ok r => .ok (s.reg r)
    | .error f => .error f
  | .registerIndirect =>
    match regOf k with
    | .ok r => memRead (s.reg r) s
    | .error f => .error f
  | .memory => memRead k s

/-- The modes that name a location (R126, R127). -/
inductive LocMode where
  | register
  | registerIndirect
  | memory
deriving DecidableEq, Repr

/-- Mode 0 names no location (R126). -/
def locMode : Mode → Option LocMode
  | .immediate => none
  | .register => some .register
  | .registerIndirect => some .registerIndirect
  | .memory => some .memory

/-- A location: a register, or the memory cell at an address. -/
inductive Loc where
  | reg (r : Reg)
  | cell (a : Word)
deriving DecidableEq, Repr

/-- The location an operand names (R126, R127); no mode changes the register it uses as an address. -/
def locOf (l : LocMode) (k : Word) (s : State) : Except Fault Loc :=
  match l with
  | .register =>
    match regOf k with
    | .ok r => .ok (.reg r)
    | .error f => .error f
  | .registerIndirect =>
    match regOf k with
    | .ok r => .ok (.cell (s.reg r))
    | .error f => .error f
  | .memory => .ok (.cell k)

/-- Read of a location. -/
def Loc.read (l : Loc) (s : State) : Except Fault Word :=
  match l with
  | .reg r => .ok (s.reg r)
  | .cell a => memRead a s

/-- Write of a location: never faults (20_memory.md R57). -/
def Loc.write (l : Loc) (v : Word) (s : State) : State :=
  match l with
  | .reg r => s.setReg r v
  | .cell a => memWrite a v s

/-- `LocRead(m, k)` (R126). -/
def locRead (l : LocMode) (k : Word) (s : State) : Except Fault Word :=
  match locOf l k s with
  | .ok p => p.read s
  | .error f => .error f

/-- `LocWrite(m, k, v)` (R127). -/
def locWrite (l : LocMode) (k v : Word) (s : State) : Except Fault State :=
  match locOf l k s with
  | .ok p => .ok (p.write v s)
  | .error f => .error f

/-- The guard `if m = 0: fall through` of a location operand (R91, R128). -/
def onLocation (m : Mode) (s : State) (f : LocMode → Out) : Out :=
  match locMode m with
  | none => silentNoOp s
  | some l => f l

/-- The guard `if m != 1: fall through` of a register operand, then `i <- Reg(k)` (R91, R128). -/
def onRegister (m : Mode) (k : Word) (s : State) (f : Reg → Out) : Out :=
  match m with
  | .register => orFault (regOf k) f
  | _ => silentNoOp s

end Sys2Proof.Machine
end

