-- ==== Sys2Proof/Machine/Arithmetic.lean ====
section
/-! DEFINITION. ADD, SUB, INC, DEC and CMP (42_arithmetic.md R153 to R157). -/

namespace Sys2Proof.Machine

/-- Store an arithmetic result in A and overwrite CF, ZF, SF (R153, R154). -/
def accumulateArith (raw : Int) (s : State) : Out :=
  fallThrough ((s.setReg .A (arith raw).stored).setArithFlags (arith raw))

/-- Read a location, apply the carry rule to `raw` of its value, write it back, overwrite CF, ZF, SF (R155, R156). -/
def modifyArith (m : Mode) (k : Word) (raw : Word → Int) (s : State) : Out :=
  onLocation m s fun l =>
    orFault (locRead l k s) fun v =>
      orFault (locWrite l k (arith (raw v)).stored s) fun t => fallThrough (t.setArithFlags (arith (raw v)))

/-- ADD (R153). -/
def execAdd (m : Mode) (k : Word) (s : State) : Out :=
  orFault (val m k s) fun v => accumulateArith (addRaw (s.reg .A) v) s

/-- SUB (R154). -/
def execSub (m : Mode) (k : Word) (s : State) : Out :=
  orFault (val m k s) fun v => accumulateArith (subRaw (s.reg .A) v) s

/-- INC (R155); mode 0 is a silent no-op. -/
def execInc (m : Mode) (k : Word) (s : State) : Out := modifyArith m k incRaw s

/-- DEC (R156); mode 0 is a silent no-op. -/
def execDec (m : Mode) (k : Word) (s : State) : Out := modifyArith m k decRaw s

/-- CMP (R157): the flags of SUB, A not written. -/
def execCmp (m : Mode) (k : Word) (s : State) : Out :=
  orFault (val m k s) fun v => fallThrough (s.setArithFlags (arith (subRaw (s.reg .A) v)))

end Sys2Proof.Machine
end

