-- ==== Sys2Proof/Machine/ControlTransfer.lean ====
section
/-! DEFINITION. JMP and the eight conditional jumps (45_control_transfer.md R200 to R210). The conditions are those of the rules,
not the unsigned comparisons the names suggest (R211). -/

namespace Sys2Proof.Machine

/-- The form of a conditional jump (R201): the target is evaluated first, even if the jump is then not taken (D18, log 21). -/
def jumpIf (cond : Bool) (m : Mode) (k : Word) (s : State) : Out :=
  orFault (val m k s) fun t => if cond then jumpTo t s else fallThrough s

/-- JMP (R202). -/
def execJmp (m : Mode) (k : Word) (s : State) : Out := orFault (val m k s) fun t => jumpTo t s

/-- JZ, alias JE (R203): ZF = 1. -/
def execJz (m : Mode) (k : Word) (s : State) : Out := jumpIf s.zf m k s

/-- JNZ, alias JNE (R204): ZF = 0. -/
def execJnz (m : Mode) (k : Word) (s : State) : Out := jumpIf (!s.zf) m k s

/-- JC (R205): CF = 1. -/
def execJc (m : Mode) (k : Word) (s : State) : Out := jumpIf s.cf m k s

/-- JNC (R206): CF = 0. -/
def execJnc (m : Mode) (k : Word) (s : State) : Out := jumpIf (!s.cf) m k s

/-- JA (R207): CF = 0 and ZF = 0. -/
def execJa (m : Mode) (k : Word) (s : State) : Out := jumpIf (!s.cf && !s.zf) m k s

/-- JAE (R208): CF = 0, the condition of JNC. -/
def execJae (m : Mode) (k : Word) (s : State) : Out := jumpIf (!s.cf) m k s

/-- JB (R209): CF = 1, the condition of JC. -/
def execJb (m : Mode) (k : Word) (s : State) : Out := jumpIf s.cf m k s

/-- JBE (R210): CF = 1 or ZF = 1. -/
def execJbe (m : Mode) (k : Word) (s : State) : Out := jumpIf (s.cf || s.zf) m k s

end Sys2Proof.Machine
end

