-- ==== Sys2Proof/Machine/DataMovement.lean ====
section
/-! DEFINITION. LOAD and STORE (41_data_movement.md R140, R141). -/

namespace Sys2Proof.Machine

/-- LOAD (R140). -/
def execLoad (m : Mode) (k : Word) (s : State) : Out :=
  orFault (val m k s) fun v => fallThrough (s.setReg .A v)

/-- STORE (R141); mode 0 is a silent no-op. -/
def execStore (m : Mode) (k : Word) (s : State) : Out :=
  onLocation m s fun l => orFault (locWrite l k (s.reg .A) s) fallThrough

end Sys2Proof.Machine
end

