-- ==== Sys2Proof/Machine/Logic.lean ====
section
/-! DEFINITION. XOR, AND, OR, NOT, SHL and SHR (43_logic_shift.md R172 to R177). -/

namespace Sys2Proof.Machine

/-- Store a logic result in A and overwrite ZF, SF (R172 to R174). -/
def accumulateLogic (r : Word) (s : State) : Out := fallThrough ((s.setReg .A r).setLogicFlags r)

/-- XOR (R172). -/
def execXor (m : Mode) (k : Word) (s : State) : Out :=
  orFault (val m k s) fun v => accumulateLogic (s.reg .A ^^^ v) s

/-- AND (R173). -/
def execAnd (m : Mode) (k : Word) (s : State) : Out :=
  orFault (val m k s) fun v => accumulateLogic (s.reg .A &&& v) s

/-- OR (R174). -/
def execOr (m : Mode) (k : Word) (s : State) : Out :=
  orFault (val m k s) fun v => accumulateLogic (s.reg .A ||| v) s

/-- NOT (R175); mode 0 is a silent no-op. -/
def execNot (m : Mode) (k : Word) (s : State) : Out :=
  onLocation m s fun l =>
    orFault (locRead l k s) fun v =>
      orFault (locWrite l k (not16 v) s) fun t => fallThrough (t.setLogicFlags (not16 v))

/-- SHL (R176), Register mode only; the other modes are a silent no-op. -/
def execShl (m : Mode) (k : Word) (s : State) : Out :=
  onRegister m k s fun r =>
    fallThrough ((s.setReg r (arith (shlRaw (s.reg r))).stored).setArithFlags (arith (shlRaw (s.reg r))))

/-- SHR (R177), Register mode only; the other modes are a silent no-op. -/
def execShr (m : Mode) (k : Word) (s : State) : Out :=
  onRegister m k s fun r => fallThrough ((s.setReg r (half (s.reg r))).setLogicFlags (half (s.reg r)))

end Sys2Proof.Machine
end

