-- ==== Sys2Proof/Machine/Stack.lean ====
section
/-! DEFINITION. PUSH and POP (44_stack.md R190, R191). -/

namespace Sys2Proof.Machine

/-- PUSH (R190), Register mode only; the other modes are a silent no-op on a full stack too. -/
def execPush (m : Mode) (k : Word) (s : State) : Out :=
  onRegister m k s fun r => pushOrStop (s.reg r) s

/-- POP (R191), Register mode only: the register check, then the stack check (40_execution_cycle.md R129); the other modes are
a silent no-op, on an empty stack too. -/
def execPop (m : Mode) (k : Word) (s : State) : Out :=
  onRegister m k s fun r => orFault (pop s) fun p => fallThrough (p.2.setReg r p.1)

end Sys2Proof.Machine
end

