-- ==== Sys2Proof/Machine/SystemIO.lean ====
section
/-! DEFINITION. HALT, NOP, READ and PRINT (46_system_io.md R220 to R223). -/

namespace Sys2Proof.Machine

/-- HALT (R220): mode and operand ignored (D27, log 19). -/
def execHalt (s : State) : Out := enterHalted s

/-- NOP (R221): mode and operand ignored (D27, log 19). -/
def execNop (s : State) : Out := fallThrough s

/-- READ (R222): mode 0 is a silent no-op that takes no character; otherwise the character is taken (or waited for, log 4)
before the register check (40_execution_cycle.md R129). -/
def execRead (m : Mode) (k : Word) (s : State) : Out :=
  onLocation m s fun l =>
    match charIn s with
    | none => awaitChar s
    | some (c, t) => orFault (locWrite l k c t) fallThrough

/-- PRINT (R223); in mode 0 the literal operand (D8, log 13). -/
def execPrint (m : Mode) (k : Word) (s : State) : Out :=
  orFault (val m k s) fun v => fallThrough (charOut v s)

end Sys2Proof.Machine
end

