-- ==== Sys2Proof/Machine/Step.lean ====
section
/-! DEFINITION. One step (40_execution_cycle.md R120): fetch at `pc`, decode, dispatch. Everything `pc` does after the fetch is in
the instruction's meaning (the advance of R25 included), so the step adds nothing around `exec`. -/

namespace Sys2Proof.Machine

/-- One step (R120, checks in the order of R129): only in state Running (R30, log 23); an absent cell at `pc` is
UninitializedMemoryAccess, an opcode outside 1 to 28 is IllegalOpcode. -/
def step (s : State) : Host.Outcome State Fault Refusal :=
  match s.run with
  | .running =>
    orFault (memFetch s.pc s) fun w =>
      match decode w with
      | .ok i => exec i s
      | .error _ => raise (.illegalOpcode s.pc w)
  | r => .refused (.noStep r)

/-- `s` with the given word in the cell at `pc`, and Running, so that the next step runs it (log 24). -/
def State.withFetchWord (s : State) (nbits w : Nat) : State :=
  { s with mem := s.mem.write s.pc.toNat (tableWord nbits w), run := .running }

end Sys2Proof.Machine
end

