-- ==== Sys2Proof/Machine/Loader.lean ====
section
/-! DEFINITION. Reset with a program image and the image text (70_reset_and_hazards.md R270 to R273, 30_encoding.md R88,
10_state.md R36). A refused image starts no run (R272, D20, log 25). Lines of text are lists of characters. -/

namespace Sys2Proof.Machine

/-- `IMAGE_BASE` (00_scope.md R6): 0. -/
def imageBase : Nat := 0

/-- `MAX_IMAGE_WORDS` (R6, D20): 21846 words reach address 65535. -/
def maxImageWords : Nat := 21846

/-- Cells holding `words` at `base`, `base + 3`, `base + 6`, … (R271). -/
def placeWords (base : Nat) : List InstrWord → Memory
  | [] => []
  | w :: rest => (base, w) :: placeWords (base + 3) rest

/-- Why no run starts (R272). Never raised by the running machine; safe. -/
inductive LoadError where
  /-- More than 21846 words. -/
  | imageTooLong
  /-- A line that is not exactly six of `0123456789ABCDEF`. -/
  | malformedLine (line : List Char)
deriving DecidableEq, Repr

/-- The memory after loading: all 24 bits of every word, legal instruction or not; every other cell absent (R271). -/
def loadWords (words : List InstrWord) : Except LoadError Memory :=
  if words.length ≤ maxImageWords then .ok (placeWords imageBase words) else .error .imageTooLong

/-- An uppercase hexadecimal digit (R88). -/
def hexDigit (c : Char) : Option Nat :=
  if 48 ≤ c.toNat ∧ c.toNat ≤ 57 then some (c.toNat - 48)
  else if 65 ≤ c.toNat ∧ c.toNat ≤ 70 then some (c.toNat - 55)
  else none

/-- The digits of a line, most significant first, as a number (R88); none if one is no digit. -/
def hexNumber (acc : Nat) : List Char → Option Nat
  | [] => some acc
  | c :: rest =>
    match hexDigit c with
    | some d => hexNumber (acc * 16 + d) rest
    | none => none

/-- One image line: exactly six digits (R88, R272). -/
def imageLine (line : List Char) : Except LoadError InstrWord :=
  if line.length = 6 then
    match hexNumber 0 line with
    | some n => .ok (BitVec.ofNat 24 n)
    | none => .error (.malformedLine line)
  else .error (.malformedLine line)

/-- The words of an image text, in order; the first malformed line refuses the image. -/
def imageWords : List (List Char) → Except LoadError (List InstrWord)
  | [] => .ok []
  | l :: rest =>
    match imageLine l with
    | .error e => .error e
    | .ok w =>
      match imageWords rest with
      | .error e => .error e
      | .ok ws => .ok (w :: ws)

/-- The digit of a value below 16 (R88). -/
def hexChar (d : Nat) : Char := if d < 10 then Char.ofNat (48 + d) else Char.ofNat (55 + d)

/-- The image line of a word (R88): six digits, most significant first. -/
def renderWord (w : InstrWord) : List Char :=
  [hexChar (w.toNat / 1048576 % 16), hexChar (w.toNat / 65536 % 16), hexChar (w.toNat / 4096 % 16),
    hexChar (w.toNat / 256 % 16), hexChar (w.toNat / 16 % 16), hexChar (w.toNat % 16)]

/-- The machine with parameters `p` after reset with memory `m` and the environment's characters `cin` (R270). -/
def resetState (p : Config.Params) (m : Memory) (cin : List Word) : State := { State.resetFor p with mem := m, cin := cin }

/-- A reset of a machine in any state (R270): nothing of the previous run survives; the character source is the environment's
and is not reset (R39, log 29), so a character that a faulting READ took is not delivered again (log 32). -/
def State.resetWith (words : List InstrWord) (s : State) : Except LoadError State :=
  match loadWords words with
  | .ok m => .ok (resetState s.params m s.cin)
  | .error e => .error e

/-- Start a run of the machine with parameters `p` (R270, R271, R280): the image text and the characters the environment will deliver. -/
def boot (p : Config.Params) (image : List (List Char)) (cin : List Word) : Except LoadError State :=
  match imageWords image with
  | .error e => .error e
  | .ok words =>
    match loadWords words with
    | .ok m => .ok (resetState p m cin)
    | .error e => .error e

end Sys2Proof.Machine
end

