-- ==== Sys2Proof/Machine/Assembler.lean ====
section
/-! DEFINITION. The two-pass assembler (30_encoding.md Part B, R95 to R107): software that makes the image, not part of the
machine (00_scope.md R5). Source lines are lists of characters. Conventions the source leaves open: logs 27 and 28. -/

namespace Sys2Proof.Machine

/-- The translation errors (R106): each prevents any image. None is raised by the machine (60_exceptions.md R249); safe. -/
inductive AsmError where
  /-- The first token is not in the opcode table (R96). -/
  | unknownMnemonic (token : List Char)
  /-- An operand references a label never defined (R101). -/
  | undefinedLabel (name : List Char)
  /-- A field value exceeds its bit width (R83, R99). -/
  | encodingRange
  /-- A form the grammar of R95 does not give (D24, D25). -/
  | refusedForm (line : List Char)
  /-- A label defined twice (D25). -/
  | duplicateLabel (name : List Char)
deriving DecidableEq, Repr

/-- The 30 mnemonics (R96): JE with JZ, JNE with JNZ (R90). -/
def mnemonics : List (List Char × (Mode → Word → Instr)) :=
  [(['H', 'A', 'L', 'T'], Instr.halt),
    (['L', 'O', 'A', 'D'], Instr.load),
    (['S', 'T', 'O', 'R', 'E'], Instr.store),
    (['A', 'D', 'D'], Instr.add),
    (['S', 'U', 'B'], Instr.sub),
    (['I', 'N', 'C'], Instr.inc),
    (['D', 'E', 'C'], Instr.dec),
    (['X', 'O', 'R'], Instr.xor),
    (['A', 'N', 'D'], Instr.and),
    (['O', 'R'], Instr.or),
    (['N', 'O', 'T'], Instr.not),
    (['S', 'H', 'L'], Instr.shl),
    (['S', 'H', 'R'], Instr.shr),
    (['N', 'O', 'P'], Instr.nop),
    (['P', 'U', 'S', 'H'], Instr.push),
    (['P', 'O', 'P'], Instr.pop),
    (['C', 'M', 'P'], Instr.cmp),
    (['J', 'M', 'P'], Instr.jmp),
    (['J', 'Z'], Instr.jz),
    (['J', 'E'], Instr.jz),
    (['J', 'N', 'Z'], Instr.jnz),
    (['J', 'N', 'E'], Instr.jnz),
    (['J', 'C'], Instr.jc),
    (['J', 'N', 'C'], Instr.jnc),
    (['J', 'A'], Instr.ja),
    (['J', 'A', 'E'], Instr.jae),
    (['J', 'B'], Instr.jb),
    (['J', 'B', 'E'], Instr.jbe),
    (['R', 'E', 'A', 'D'], Instr.read),
    (['P', 'R', 'I', 'N', 'T'], Instr.print)]

def haltName : List Char := ['H', 'A', 'L', 'T']

def nopName : List Char := ['N', 'O', 'P']

/-- The identifier of a register name (R98): 1 to 5. -/
def regNameId (t : List Char) : Option Nat :=
  ([(['A'], 1), (['B'], 2), (['C'], 3), (['D'], 4), (['E'], 5)] : List (List Char × Nat)).lookup t

/-- A decimal digit. That identifiers and numbers know the ten ASCII digits 0 to 9 only: DESIGN CHOICE, log 27. -/
def isDigit (c : Char) : Bool := decide (48 ≤ c.toNat) && decide (c.toNat ≤ 57)

/-- A letter. That an identifier's letters (D25) are the ASCII letters A to Z and a to z only: DESIGN CHOICE, log 27. -/
def isLetter (c : Char) : Bool :=
  (decide (65 ≤ c.toNat) && decide (c.toNat ≤ 90)) || (decide (97 ≤ c.toNat) && decide (c.toNat ≤ 122))

/-- A string of decimal digits (R95). -/
def isNumber (t : List Char) : Bool := !t.isEmpty && t.all isDigit

/-- An identifier: letters and digits (ASCII, log 27), underscore, not starting with a digit, not a register name or mnemonic (D25). -/
def isLabelName (t : List Char) : Bool :=
  match t with
  | [] => false
  | c :: _ =>
    !isDigit c && t.all (fun x => isLetter x || isDigit x || x == '_') && (regNameId t).isNone && (mnemonics.lookup t).isNone

/-- The tokens of a line, cut at every space. -/
def splitSpaces : List Char → List (List Char)
  | [] => [[]]
  | c :: rest =>
    match splitSpaces rest with
    | [] => [[c]]
    | t :: ts => if c = ' ' then [] :: t :: ts else (c :: t) :: ts

/-- A source line (R95). -/
inductive SourceLine where
  | label (name : List Char)
  | instr (mnemonic : List Char) (operand : Option (List Char))
deriving DecidableEq, Repr

/-- A line whose first token is no mnemonic and that is no label definition is Unknown Mnemonic (R96); a line that is empty or
begins with a space has no first token and is no form of R95 (log 27). -/
def notAnInstruction (line first : List Char) : AsmError :=
  if first.isEmpty then .refusedForm line else .unknownMnemonic first

/-- A single token that is no mnemonic: a label definition if it is an identifier and a colon (R95, R103), else Unknown
Mnemonic (R96). -/
def labelLine (t : List Char) : Except AsmError SourceLine :=
  if t.getLast? = some ':' ∧ isLabelName t.dropLast = true then .ok (.label t.dropLast)
  else .error (notAnInstruction t t)

/-- What a line is (R95, R96); HALT and NOP take no operand (R96, R107; log 27). -/
def classifyLine (line : List Char) : Except AsmError SourceLine :=
  match splitSpaces line with
  | [] => .error (.refusedForm line)
  | [t] => if (mnemonics.lookup t).isSome then .ok (.instr t none) else labelLine t
  | [t, o] =>
    if (mnemonics.lookup t).isNone then .error (notAnInstruction line t)
    else if o.isEmpty || t == haltName || t == nopName then .error (.refusedForm line)
    else .ok (.instr t (some o))
  | t :: _ =>
    if (mnemonics.lookup t).isNone then .error (notAnInstruction line t) else .error (.refusedForm line)

def classifyLines : List (List Char) → Except AsmError (List SourceLine)
  | [] => .ok []
  | l :: rest =>
    match classifyLine l with
    | .error e => .error e
    | .ok x =>
      match classifyLines rest with
      | .error e => .error e
      | .ok xs => .ok (x :: xs)

/-- How pass 1 counts an instruction line: every line but HALT, NOP included (R103, R104). -/
def countsInPassOne (mnemonic : List Char) : Bool := mnemonic != haltName

/-- Pass 1 (R103): each label bound to `instructionIndex × 3`, HALT lines not counted (R104); a duplicate is refused (D25). Where
several labels are defined more than once, the one named is that of the last definition in source order which a later line
repeats: DESIGN CHOICE, log 27. -/
def labelTable (index : Nat) : List SourceLine → Except AsmError (List (List Char × Nat))
  | [] => .ok []
  | .instr t _ :: rest => labelTable (if countsInPassOne t then index + 1 else index) rest
  | .label n :: rest =>
    match labelTable index rest with
    | .error e => .error e
    | .ok table => if (table.lookup n).isSome then .error (.duplicateLabel n) else .ok ((n, index * 3) :: table)

/-- The bracketed operand, given the text after the bracket (R98 rule 2, R100). -/
def classifyBracket (whole inner : List Char) : Except AsmError (Mode × Nat) :=
  if inner.getLast? = some ']' then
    match regNameId inner.dropLast with
    | some r => .ok (.registerIndirect, r)
    | none =>
      if isNumber inner.dropLast then
        match hexNumber 0 inner.dropLast with
        | some n => .ok (.memory, n)
        | none => .error (.refusedForm whole)
      else .error (.refusedForm whole)
  else .error (.refusedForm whole)

/-- A bare operand: register, digits read in base 16, else a label (R98 rules 3 to 5, R99, R101). -/
def classifyBare (labels : List (List Char × Nat)) (t : List Char) : Except AsmError (Mode × Nat) :=
  match regNameId t with
  | some r => .ok (.register, r)
  | none =>
    if isNumber t then
      match hexNumber 0 t with
      | some n => .ok (.immediate, n)
      | none => .error (.refusedForm t)
    else
      match labels.lookup t with
      | some a => .ok (.immediate, a)
      | none => .error (.undefinedLabel t)

/-- The operand classifier (R98): (addressing mode, resolved value); an absent operand gives mode 0, value 0. -/
def classifyOperand (labels : List (List Char × Nat)) : Option (List Char) → Except AsmError (Mode × Nat)
  | none => .ok (.immediate, 0)
  | some t =>
    match t with
    | ['\'', c, '\''] => .ok (.immediate, c.toNat)
    | '\'' :: _ => .error (.refusedForm t)
    | '[' :: inner => classifyBracket t inner
    | _ => classifyBare labels t

/-- Pass 2 for one instruction line (R105): look up the opcode, classify the operand, encode. -/
def encodeLine (labels : List (List Char × Nat)) (t : List Char) (o : Option (List Char)) : Except AsmError InstrWord :=
  match mnemonics.lookup t with
  | none => .error (.unknownMnemonic t)
  | some mk =>
    match classifyOperand labels o with
    | .error e => .error e
    | .ok (m, n) =>
      match encodeTriple (mk .immediate 0#16).opcode.toNat m.toBits.toNat n with
      | .ok w => .ok w
      | .error _ => .error .encodingRange

/-- Pass 2 (R105): one word for every instruction line, HALT included, in source order. -/
def encodeLines (labels : List (List Char × Nat)) : List SourceLine → Except AsmError (List InstrWord)
  | [] => .ok []
  | .label _ :: rest => encodeLines labels rest
  | .instr t o :: rest =>
    match encodeLine labels t o with
    | .error e => .error e
    | .ok w =>
      match encodeLines labels rest with
      | .error e => .error e
      | .ok ws => .ok (w :: ws)

/-- The words of the image, or the first error (R106). -/
def assembleWords (source : List (List Char)) : Except AsmError (List InstrWord) :=
  match classifyLines source with
  | .error e => .error e
  | .ok lines =>
    match labelTable 0 lines with
    | .error e => .error e
    | .ok labels => encodeLines labels lines

/-- The assembler: source lines to the image text, each word as six uppercase hexadecimal digits, in source order (R105), or no
image at all (R106). -/
def assemble (source : List (List Char)) : Except AsmError (List (List Char)) :=
  match assembleWords source with
  | .error e => .error e
  | .ok words => .ok (words.map renderWord)

end Sys2Proof.Machine
end

