-- ==== Sys2Proof/Machine/FaultEntry.lean ====
section
/-! DEFINITION. The machine after a step that raised a fault (60_exceptions.md R240, R241): the lines before the raise have run
(00_scope.md R10), `run` is Faulted(name). -/

namespace Sys2Proof.Machine

/-- The instruction that the step of `s` executes; none where fetch or dispatch raises (40_execution_cycle.md R120). -/
def State.fetched (s : State) : Option Instr :=
  match memFetch s.pc s with
  | .ok w =>
    match decode w with
    | .ok i => some i
    | .error _ => none
  | .error _ => none

/-- Does `i` take a character: READ in modes 1 to 3 (46_system_io.md R222)? -/
def takesCharacter : Instr → Bool
  | .read m _ => m != .immediate
  | _ => false

/-- `s` after the effects that the faulting instruction `i` has before its raise. Of R129's order only the taking of READ's
character (4) comes before a check that can raise (5); every other effect (8) comes after all of them. -/
def beforeRaise (i : Instr) (s : State) : State :=
  if takesCharacter i then
    match charIn s with
    | some (_, t) => t
    | none => s
  else s

/-- The machine after the step of `s` that raised `f` (R240): `run` = Faulted(name), the character of a faulting READ taken
(R129; that a later reset does not deliver it again is log 32). Of the other fields only `cout` may be spoken of (R131). -/
def State.enterFaulted (s : State) (f : Fault) : State :=
  match s.fetched with
  | some i => { beforeRaise i s with run := .faulted f.name }
  | none => { s with run := .faulted f.name }

end Sys2Proof.Machine
end

