-- ==== Sys2Proof/Safety.lean ====
section
/-! DEFINITION. What may be said of a run: its end (40_execution_cycle.md R130, R131), and the three facts that every state of a
run has (the memory's canonical form, the stack pointer's law, the stack's depth). -/

namespace Sys2Proof.Machine

/-- What may be said of a machine after some steps (R131): of a Halted one its state (but not `pc`, log 18), of a Faulted one
only the fault's name and what the sink had received before the faulting step. -/
inductive RunEnd where
  | running (s : State)
  | halted (s : State)
  | faulted (cause : FaultName) (cout : List Word)
deriving DecidableEq, Repr

/-- A state, seen by its run state (R30). -/
def State.ended (s : State) : RunEnd :=
  match s.run with
  | .running => .running s
  | .halted => .halted s
  | .faulted f => .faulted f s.cout

/-- At most `n` steps; a run that has ended stays ended (R130, R240). -/
def runFor : Nat → State → RunEnd
  | 0, s => s.ended
  | n + 1, s =>
    match step s with
    | .next t => runFor n t
    | .fault f => (s.enterFaulted f).ended
    | .refused _ => s.ended

/-- The law of the bookkeeping stack pointer (10_state.md R33): `sp = (SP_INIT - 2·len(stk)) mod 65536`. -/
def State.SpLaw (s : State) : Prop := s.sp = s.params.spInit - BitVec.ofNat 16 (2 * s.stk.length)

/-- The stack holds at most `STACK_DEPTH` values (20_memory.md R61). -/
def State.WithinDepth (s : State) : Prop := ∀ d, s.params.stackDepth = some d → s.stk.length ≤ d

/-- What every state of a run satisfies. -/
def State.Inv (s : State) : Prop := s.mem.wf ∧ s.SpLaw ∧ s.WithinDepth

/-! ### What a step leaves alone -/

/-- Every register is unchanged. -/
def RegsKept (s t : State) : Prop := ∀ q, t.reg q = s.reg q

/-- Every register but `r` is unchanged. -/
def RegsKeptBut (r : Reg) (s t : State) : Prop := ∀ q, q ≠ r → t.reg q = s.reg q

/-- The three flags are unchanged. -/
def FlagsKept (s t : State) : Prop := t.zf = s.zf ∧ t.cf = s.cf ∧ t.sf = s.sf

/-- Every memory cell, absent or present, is unchanged. -/
def CellsKept (s t : State) : Prop := ∀ a : Word, t.cell a = s.cell a

/-- The stack and its pointer are unchanged. -/
def StackKept (s t : State) : Prop := t.stk = s.stk ∧ t.sp = s.sp

/-- The character streams are unchanged. -/
def PortsKept (s t : State) : Prop := t.cin = s.cin ∧ t.cout = s.cout

/-- The automatic advance (10_state.md R25; the wrap is D12, log 17), the run state unchanged. -/
def Advanced (s t : State) : Prop := t.pc = s.pc + 3#16 ∧ t.run = s.run

/-- Location `p` holds the 16-bit value `v` in `t`; every other register and every other cell is as in `s`. -/
def WroteOnly (p : Loc) (v : Word) (s t : State) : Prop :=
  p.read t = .ok v ∧ (∀ q, p ≠ .reg q → t.reg q = s.reg q) ∧ (∀ a, p ≠ .cell a → t.cell a = s.cell a)

/-- The effect of XOR, AND and OR with result `r` (43_logic_shift.md R170, R172 to R174). -/
def LogicEffect (r : Word) (s t : State) : Prop :=
  t.regA = r ∧ RegsKeptBut .A s t ∧ (t.zf = true ↔ r = 0#16) ∧ (t.sf = true ↔ 32768 ≤ r.toNat) ∧ t.cf = s.cf ∧
  CellsKept s t ∧ StackKept s t ∧ PortsKept s t ∧ Advanced s t

/-- The effect of a conditional jump to `target` (45_control_transfer.md R201). -/
def JumpEffect (taken : Prop) (target : Word) (s t : State) : Prop :=
  (taken → t.pc = target) ∧ (¬ taken → t.pc = s.pc + 3#16) ∧ t.run = s.run ∧
  RegsKept s t ∧ FlagsKept s t ∧ CellsKept s t ∧ StackKept s t ∧ PortsKept s t

/-- The instructions that write CF (10_state.md R28), in a mode they support. -/
def writesCf : Instr → Bool
  | .add _ _ | .sub _ _ | .inc _ _ | .dec _ _ | .cmp _ _ | .shl _ _ => true
  | _ => false

/-- The instructions that write ZF and SF (R28), in a mode they support. -/
def writesZfSf : Instr → Bool
  | .add _ _ | .sub _ _ | .inc _ _ | .dec _ _ | .cmp _ _ | .shl _ _ => true
  | .xor _ _ | .and _ _ | .or _ _ | .not _ _ | .shr _ _ => true
  | _ => false

/-- JMP and the eight conditional jumps. -/
def isJump : Instr → Bool
  | .jmp _ _ | .jz _ _ | .jnz _ _ | .jc _ _ | .jnc _ _ | .ja _ _ | .jae _ _ | .jb _ _ | .jbe _ _ => true
  | _ => false

/-- The instructions that read the location they then write (R155, R156, R175). -/
def modifiesLocation : Instr → Bool
  | .inc _ _ | .dec _ _ | .not _ _ => true
  | _ => false

/-- Is `i` a HALT? -/
def isHalt : Instr → Bool
  | .halt _ _ => true
  | _ => false

/-- Is `i` a READ that finds no character (46_system_io.md R222)? -/
def isWaitingRead (i : Instr) (s : State) : Bool := takesCharacter i && s.cin.isEmpty

/-- `t` is reached from `s` by some steps. -/
inductive Reaches : State → State → Prop where
  | refl (s : State) : Reaches s s
  | tail {s t u : State} : Reaches s t → step t = .next u → Reaches s u

/-- A run from `s` is safe when no state it reaches raises a fault. -/
def Safe (s : State) : Prop := ∀ t f, Reaches s t → step t ≠ .fault f

end Sys2Proof.Machine
end

