-- ==== Sys2Proof/Certificates/Slice0/Obligations.lean ====
section
/-! DEFINITION. The statements for the provers, in the order of OBLIGATIONS.json. A statement whose docstring names a decision
D<n> of 92_eei_decisions.md rests on a choice (the log entry is named beside it), not on a sentence of the source. -/

open Sys2Proof Sys2Proof.Machine

/-- Codec round trip on instructions (30_encoding.md sections 1 and 3). The opcode numbers 3 to 27 are decision D1 (log 7). -/
def Obligations.DecodeOfEncodeIsIdentity : Prop :=
  ∀ i : Instr, decode (encode i) = .ok i

/-- The other direction of the round trip (30_encoding.md sections 1 and 3; D1, log 7). -/
def Obligations.EncodeOfDecodeIsIdentity : Prop :=
  ∀ (w : InstrWord) (i : Instr), decode w = .ok i → encode i = w

/-- 30_encoding.md R85. -/
def Obligations.CodecTriplesBijection : Prop :=
  (∀ o m k : Nat, o ≤ 63 → m ≤ 3 → k ≤ 65535 →
      ∃ w, encodeTriple o m k = .ok w ∧ decodeTriple w = (o, m, k)) ∧
    (∀ w : InstrWord, encodeTriple (decodeTriple w).1 (decodeTriple w).2.1 (decodeTriple w).2.2 = .ok w)

/-- 30_encoding.md R83. -/
def Obligations.EncodeTripleValueOrRangeError : Prop :=
  ∀ o m k : Nat,
    (o ≤ 63 ∧ m ≤ 3 ∧ k ≤ 65535 → ∃ w, encodeTriple o m k = .ok w ∧ w.toNat = o * 262144 + m * 65536 + k) ∧
    (¬ (o ≤ 63 ∧ m ≤ 3 ∧ k ≤ 65535) → encodeTriple o m k = .error .encodingRange)

/-- 30_encoding.md R82. -/
def Obligations.DecodeTripleByDivision : Prop :=
  ∀ w : InstrWord, decodeTriple w = (w.toNat / 262144, w.toNat / 65536 % 4, w.toNat % 65536)

/-- Illegal opcodes (30_encoding.md section 4; the refusal is decision D4, log 10; the map is D1, log 7). -/
def Obligations.DecodeRefusesExactlyIllegalOpcodes : Prop :=
  ∀ w : InstrWord,
    (decode w = .error (.illegalOpcode (opcodeField w)) ↔ (w.toNat / 262144 = 0 ∨ 29 ≤ w.toNat / 262144)) ∧
    (¬ (w.toNat / 262144 = 0 ∨ 29 ≤ w.toNat / 262144) →
      ∃ i, decode w = .ok i ∧ i.opcode.toNat = w.toNat / 262144)

/-- Sanity words (30_encoding.md section 3; 95_test_vectors.md T1). DEC, CMP, SHL, POP and JBE are decision D1 (log 7), the refusals D4 (log 10). -/
def Obligations.WordsFromTheSpecDecode : Prop :=
  decode 0x080041#24 = .ok (.load .immediate 0x0041#16) ∧ decode 0x710001#24 = .ok (.print .register 1#16) ∧
    decode 0x040000#24 = .ok (.halt .immediate 0#16) ∧ decode 0x1D0002#24 = .ok (.dec .register 2#16) ∧
    decode 0x460005#24 = .ok (.cmp .registerIndirect 5#16) ∧ decode 0x310002#24 = .ok (.shl .register 2#16) ∧
    decode 0x410003#24 = .ok (.pop .register 3#16) ∧ decode 0x6B1234#24 = .ok (.jbe .memory 0x1234#16) ∧
    decode 0x740000#24 = .error (.illegalOpcode 29#6) ∧ decode 0x00FFFF#24 = .error (.illegalOpcode 0#6)

/-- 10_state.md R29. -/
def Obligations.ResetFlagsAreZero : Prop :=
  State.reset.zf = false ∧ State.reset.cf = false ∧ State.reset.sf = false

/-- Reset and the loader (70_reset_and_hazards.md section 1). The image limit is D20 (log 25), SP_INIT D14 (log 5), the sink D17 (log 29). -/
def Obligations.ResetWithImageLeavesSpecState : Prop :=
  ∀ (words : List InstrWord) (s : State),
    (words.length ≤ 21846 → ∃ t, s.resetWith words = .ok t ∧
      (∀ q, t.reg q = 0#16) ∧ t.zf = false ∧ t.cf = false ∧ t.sf = false ∧ t.pc = 0#16 ∧ t.run = .running ∧
      t.stk = [] ∧ t.sp = s.params.spInit ∧ t.params = s.params ∧ t.cout = [] ∧ t.cin = s.cin ∧
      (∀ n, n < words.length → t.mem.read (3 * n) = words[n]?) ∧
      (∀ a, (∀ n, n < words.length → a ≠ 3 * n) → t.mem.read a = none)) ∧
    (21846 < words.length → s.resetWith words = .error .imageTooLong)

/-- 30_encoding.md R88. -/
def Obligations.ImageLineIsSixHexDigits : Prop :=
  ∀ w : InstrWord, (renderWord w).length = 6 ∧
    (∀ c ∈ renderWord w, c ∈ ['0', '1', '2', '3', '4', '5', '6', '7', '8', '9', 'A', 'B', 'C', 'D', 'E', 'F']) ∧
    hexNumber 0 (renderWord w) = some w.toNat ∧
    hexNumber 0 ((renderWord w).take 2) = some ((decodeTriple w).1 * 4 + (decodeTriple w).2.1) ∧
    hexNumber 0 ((renderWord w).drop 2) = some (decodeTriple w).2.2

/-- The loader's lines (70_reset_and_hazards.md section 1); D20 (log 25). -/
def Obligations.LoaderAcceptsExactlyImageLines : Prop :=
  ∀ l : List Char,
    (∀ w, imageLine l = .ok w ↔ l = renderWord w) ∧ ((∀ w, l ≠ renderWord w) → imageLine l = .error (.malformedLine l))

/-- Reset with an image and the entry point (70_reset_and_hazards.md section 1). The refusals are D20 (log 25), IllegalOpcode D4 (log 10). -/
def Obligations.BootedRunStartsAtFirstWord : Prop :=
  ∀ (p : Config.Params) (cin : List Word),
    (∀ image s, boot p image cin = .ok s → s.run = .running ∧ s.pc = 0#16 ∧ s.params = p ∧ s.cin = cin ∧
      (∀ line rest w, image = line :: rest → imageLine line = .ok w →
        (∀ i, decode w = .ok i → step s = exec i s) ∧
        (∀ e, decode w = .error e → step s = .fault (.illegalOpcode 0#16 w)))) ∧
    (∃ s, boot p [] cin = .ok s ∧ step s = .fault (.uninitializedMemoryAccess 0#16)) ∧
    (∀ words : List InstrWord,
      (words.length ≤ 21846 → ∃ s, boot p (words.map renderWord) cin = .ok s) ∧
      (21846 < words.length → boot p (words.map renderWord) cin = .error .imageTooLong) ∧
      (∀ (l : List Char) (rest : List (List Char)), (∀ w, l ≠ renderWord w) →
        boot p (words.map renderWord ++ l :: rest) cin = .error (.malformedLine l)))

/-- Reg(k) and Val (40_execution_cycle.md section 2). B to E are D2 (log 8); the faults InvalidRegister and WideDataRead are D3 and D6 (logs 9, 11). -/
def Obligations.OperandValueByMode : Prop :=
  (regOf 1#16 = .ok .A ∧ regOf 2#16 = .ok .B ∧ regOf 3#16 = .ok .C ∧ regOf 4#16 = .ok .D ∧ regOf 5#16 = .ok .E) ∧
    (∀ k : Word, (k.toNat = 0 ∨ 5 < k.toNat) → regOf k = .error (.invalidRegister k)) ∧
    (∀ (k : Word) (s : State),
      val .immediate k s = .ok k ∧
      (∀ r, regOf k = .ok r → val .register k s = .ok (s.reg r) ∧ val .registerIndirect k s = memRead (s.reg r) s) ∧
      (∀ f, regOf k = .error f → f = .invalidRegister k ∧
        val .register k s = .error f ∧ val .registerIndirect k s = .error f) ∧
      val .memory k s = memRead k s ∧
      (∀ a f, memRead a s = .error f → f = .uninitializedMemoryAccess a ∨ f = .wideDataRead a))

/-- MemRead(a, 16) (20_memory.md section 4); WideDataRead is decision D6 (log 11). -/
def Obligations.DataReadOfCell : Prop :=
  ∀ (a : Word) (s : State),
    (s.cell a = none → memRead a s = .error (.uninitializedMemoryAccess a)) ∧
    (∀ w, s.cell a = some w → 65535 < w.toNat → memRead a s = .error (.wideDataRead a)) ∧
    (∀ w, s.cell a = some w → w.toNat ≤ 65535 → ∃ v, memRead a s = .ok v ∧ v.toNat = w.toNat)

/-- LOAD (41_data_movement.md). The pc wraps by D12 (log 17). -/
def Obligations.LoadPutsOperandInA : Prop :=
  ∀ (m : Mode) (k : Word) (s : State) (v : Word), val m k s = .ok v →
    ∃ t, exec (.load m k) s = .next t ∧ t.regA = v ∧ RegsKeptBut .A s t ∧ FlagsKept s t ∧
      CellsKept s t ∧ StackKept s t ∧ PortsKept s t ∧ Advanced s t

/-- STORE (41_data_movement.md); `locOf` computes the location as the meaning does. The pc wraps by D12 (log 17). -/
def Obligations.StoreWritesAToLocation : Prop :=
  ∀ (m : Mode) (l : LocMode) (k : Word) (s : State) (p : Loc), locMode m = some l → locOf l k s = .ok p →
    ∃ t, exec (.store m k) s = .next t ∧ WroteOnly p s.regA s t ∧ FlagsKept s t ∧
      StackKept s t ∧ PortsKept s t ∧ Advanced s t

/-- Memory consistency (20_memory.md section 8); the cell's zero extension is D5 (log 1). -/
def Obligations.StoreThenLoadReturnsValue : Prop :=
  ∀ (k : Word) (s t u : State), exec (.store .memory k) s = .next t → u.cell k = t.cell k →
    (∃ x, exec (.load .memory k) u = .next x ∧ x.regA = s.regA) ∧
    (∀ (a v : Word), a ≠ k → val .memory a s = .ok v → val .memory a t = .ok v)

/-- ADD (42_arithmetic.md sections 1 and 2). The pc wraps by D12 (log 17). -/
def Obligations.AddResultAndFlags : Prop :=
  ∀ (m : Mode) (k : Word) (s : State) (v : Word), val m k s = .ok v →
    ∃ t, exec (.add m k) s = .next t ∧
      (s.regA.toNat + v.toNat ≤ 65535 → t.regA.toNat = s.regA.toNat + v.toNat ∧ t.cf = false) ∧
      (65535 < s.regA.toNat + v.toNat → t.regA.toNat = s.regA.toNat + v.toNat - 65535 ∧ t.cf = true) ∧
      (t.zf = true ↔ s.regA = 0#16 ∧ v = 0#16) ∧ (t.sf = true ↔ 32768 ≤ t.regA.toNat) ∧
      RegsKeptBut .A s t ∧ CellsKept s t ∧ StackKept s t ∧ PortsKept s t ∧ Advanced s t

/-- SUB (42_arithmetic.md section 2). The unbounded sum is D9 (log 14), the reduction D10 (log 15), the pc wrap D12 (log 17). -/
def Obligations.SubResultAndFlags : Prop :=
  ∀ (m : Mode) (k : Word) (s : State) (v : Word), val m k s = .ok v →
    ∃ t, exec (.sub m k) s = .next t ∧
      (s.regA.toNat < v.toNat → t.regA.toNat = 65536 + s.regA.toNat - v.toNat ∧ t.cf = false) ∧
      (v.toNat ≤ s.regA.toNat → ¬ (s.regA.toNat = 65535 ∧ v.toNat = 0) →
        t.regA.toNat = s.regA.toNat - v.toNat + 1 ∧ t.cf = true) ∧
      (s.regA.toNat = 65535 ∧ v.toNat = 0 → t.regA = 0#16 ∧ t.cf = true) ∧
      t.zf = false ∧ (t.sf = true ↔ 32768 ≤ t.regA.toNat) ∧
      RegsKeptBut .A s t ∧ CellsKept s t ∧ StackKept s t ∧ PortsKept s t ∧ Advanced s t

/-- CMP (42_arithmetic.md section 2). D9 and D10 as in SUB (logs 14, 15); the pc wrap is D12 (log 17). -/
def Obligations.CmpWritesSubFlagsOnly : Prop :=
  ∀ (m : Mode) (k : Word) (s : State) (v : Word), val m k s = .ok v →
    ∃ t, exec (.cmp m k) s = .next t ∧
      (t.cf = true ↔ v.toNat ≤ s.regA.toNat) ∧ t.zf = false ∧
      (s.regA.toNat < v.toNat → (t.sf = true ↔ 32768 ≤ 65536 + s.regA.toNat - v.toNat)) ∧
      (v.toNat ≤ s.regA.toNat → ¬ (s.regA.toNat = 65535 ∧ v.toNat = 0) →
        (t.sf = true ↔ 32768 ≤ s.regA.toNat - v.toNat + 1)) ∧
      (s.regA.toNat = 65535 ∧ v.toNat = 0 → t.sf = false) ∧
      RegsKept s t ∧ CellsKept s t ∧ StackKept s t ∧ PortsKept s t ∧ Advanced s t

/-- INC (42_arithmetic.md section 2). The pc wraps by D12 (log 17). -/
def Obligations.IncResultAndFlags : Prop :=
  ∀ (m : Mode) (l : LocMode) (k : Word) (s : State) (p : Loc) (v : Word),
    locMode m = some l → locOf l k s = .ok p → p.read s = .ok v →
    ∃ t, exec (.inc m k) s = .next t ∧ WroteOnly p (if v = 0xFFFF#16 then 1#16 else v + 1#16) s t ∧
      (t.cf = true ↔ v = 0xFFFF#16) ∧ t.zf = false ∧ (t.sf = true ↔ 32767 ≤ v.toNat ∧ v.toNat ≤ 65534) ∧
      StackKept s t ∧ PortsKept s t ∧ Advanced s t

/-- DEC (42_arithmetic.md section 2). D28 (log 20), D10 (log 15), the pc wrap D12 (log 17). -/
def Obligations.DecResultAndFlags : Prop :=
  ∀ (m : Mode) (l : LocMode) (k : Word) (s : State) (p : Loc) (v : Word),
    locMode m = some l → locOf l k s = .ok p → p.read s = .ok v →
    ∃ t, exec (.dec m k) s = .next t ∧ WroteOnly p (v - 1#16) s t ∧
      t.cf = false ∧ (t.zf = true ↔ v = 1#16) ∧ (t.sf = true ↔ v.toNat = 0 ∨ 32769 ≤ v.toNat) ∧
      StackKept s t ∧ PortsKept s t ∧ Advanced s t

/-- The laws of integer arithmetic (42_arithmetic.md section 3). -/
def Obligations.AddCarryNeverGivesZero : Prop :=
  (∀ (m n : Mode) (j k : Word) (s u t x : State), val m k s = .ok u.regA → val n j u = .ok s.regA →
      exec (.add m k) s = .next t → exec (.add n j) u = .next x →
      t.regA = x.regA ∧ t.zf = x.zf ∧ t.cf = x.cf ∧ t.sf = x.sf) ∧
    (∀ (m : Mode) (k : Word) (s t : State), exec (.add m k) s = .next t → t.cf = true → t.zf = false ∧ t.regA ≠ 0#16)

/-- XOR, AND, OR (43_logic_shift.md). The pc wraps by D12 (log 17). -/
def Obligations.LogicResultAndFlags : Prop :=
  ∀ (m : Mode) (k : Word) (s : State) (v : Word), val m k s = .ok v →
    (∃ t, exec (.xor m k) s = .next t ∧ LogicEffect (s.regA ^^^ v) s t) ∧
    (∃ t, exec (.and m k) s = .next t ∧ LogicEffect (s.regA &&& v) s t) ∧
    (∃ t, exec (.or m k) s = .next t ∧ LogicEffect (s.regA ||| v) s t)

/-- NOT (43_logic_shift.md; the complement within 16 bits is derived there, log 30). The pc wraps by D12 (log 17). -/
def Obligations.NotResultAndFlags : Prop :=
  ∀ (m : Mode) (l : LocMode) (k : Word) (s : State) (p : Loc) (v : Word),
    locMode m = some l → locOf l k s = .ok p → p.read s = .ok v →
    ∃ t, exec (.not m k) s = .next t ∧ (∃ r : Word, r.toNat = 65535 - v.toNat ∧ WroteOnly p r s t) ∧
      (t.zf = true ↔ v.toNat = 65535) ∧ (t.sf = true ↔ v.toNat < 32768) ∧ t.cf = s.cf ∧
      StackKept s t ∧ PortsKept s t ∧ Advanced s t

/-- SHL (43_logic_shift.md section 2). D11 (log 16), the pc wrap D12 (log 17). -/
def Obligations.ShlResultAndFlags : Prop :=
  ∀ (k : Word) (s : State) (r : Reg), regOf k = .ok r →
    ∃ t, exec (.shl .register k) s = .next t ∧
      ((s.reg r).toNat < 32768 → (t.reg r).toNat = 2 * (s.reg r).toNat ∧ t.cf = false) ∧
      (32768 ≤ (s.reg r).toNat → (t.reg r).toNat = 2 * (s.reg r).toNat - 65535 ∧ t.cf = true) ∧
      t.reg r = (s.reg r).rotateLeft 1 ∧
      (t.zf = true ↔ s.reg r = 0#16) ∧ (t.sf = true ↔ 32768 ≤ (t.reg r).toNat) ∧
      RegsKeptBut r s t ∧ CellsKept s t ∧ StackKept s t ∧ PortsKept s t ∧ Advanced s t

/-- SHR (43_logic_shift.md section 2; the logical shift is derived there, log 30). The pc wraps by D12 (log 17). -/
def Obligations.ShrResultAndFlags : Prop :=
  ∀ (k : Word) (s : State) (r : Reg), regOf k = .ok r →
    ∃ t, exec (.shr .register k) s = .next t ∧ (t.reg r).toNat = (s.reg r).toNat / 2 ∧
      (t.zf = true ↔ (s.reg r).toNat ≤ 1) ∧ t.sf = false ∧ t.cf = s.cf ∧
      RegsKeptBut r s t ∧ CellsKept s t ∧ StackKept s t ∧ PortsKept s t ∧ Advanced s t

/-- PUSH (44_stack.md). STACK_DEPTH and the stop are D15 (log 6), sp's wrap D14 (log 5), the pc wrap D12 (log 17). -/
def Obligations.PushAppendsRegister : Prop :=
  ∀ (k : Word) (s : State) (r : Reg), regOf k = .ok r →
    ((∀ d, s.params.stackDepth = some d → s.stk.length < d) →
      ∃ t, exec (.push .register k) s = .next t ∧ t.stk = s.stk ++ [s.reg r] ∧ t.sp = s.sp - 2#16 ∧
        RegsKept s t ∧ FlagsKept s t ∧ CellsKept s t ∧ PortsKept s t ∧ Advanced s t) ∧
    (∀ d, s.params.stackDepth = some d → d ≤ s.stk.length →
      exec (.push .register k) s = .refused .stackDepthReached)

/-- POP (44_stack.md). sp's wrap is D14 (log 5), the pc wrap D12 (log 17). -/
def Obligations.PopTakesTopOfStack : Prop :=
  ∀ (k : Word) (s : State) (r : Reg) (rest : List Word) (v : Word), regOf k = .ok r → s.stk = rest ++ [v] →
    ∃ t, exec (.pop .register k) s = .next t ∧ t.reg r = v ∧ t.stk = rest ∧ t.sp = s.sp + 2#16 ∧
      RegsKeptBut r s t ∧ FlagsKept s t ∧ CellsKept s t ∧ PortsKept s t ∧ Advanced s t

/-- The stack LIFO law (44_stack.md). -/
def Obligations.PushThenPopRestoresRegister : Prop :=
  ∀ (k : Word) (s t u : State) (r : Reg), regOf k = .ok r → exec (.push .register k) s = .next t →
    u.stk = t.stk → u.sp = t.sp →
    ∃ x, exec (.pop .register k) u = .next x ∧ x.reg r = s.reg r ∧ x.stk = s.stk ∧ x.sp = s.sp

/-- JMP (45_control_transfer.md). -/
def Obligations.JmpSetsPcToTarget : Prop :=
  ∀ (m : Mode) (k : Word) (s : State) (v : Word), val m k s = .ok v →
    ∃ t, exec (.jmp m k) s = .next t ∧ t.pc = v ∧ t.run = s.run ∧
      RegsKept s t ∧ FlagsKept s t ∧ CellsKept s t ∧ StackKept s t ∧ PortsKept s t

/-- The conditional jumps (45_control_transfer.md section 2). The pc wraps by D12 (log 17). -/
def Obligations.ConditionalJumpsFollowFlags : Prop :=
  ∀ (m : Mode) (k : Word) (s : State) (v : Word), val m k s = .ok v →
    (∃ t, exec (.jz m k) s = .next t ∧ JumpEffect (s.zf = true) v s t) ∧
    (∃ t, exec (.jnz m k) s = .next t ∧ JumpEffect (s.zf = false) v s t) ∧
    (∃ t, exec (.jc m k) s = .next t ∧ JumpEffect (s.cf = true) v s t) ∧
    (∃ t, exec (.jnc m k) s = .next t ∧ JumpEffect (s.cf = false) v s t) ∧
    (∃ t, exec (.ja m k) s = .next t ∧ JumpEffect (s.cf = false ∧ s.zf = false) v s t) ∧
    (∃ t, exec (.jae m k) s = .next t ∧ JumpEffect (s.cf = false) v s t) ∧
    (∃ t, exec (.jb m k) s = .next t ∧ JumpEffect (s.cf = true) v s t) ∧
    (∃ t, exec (.jbe m k) s = .next t ∧ JumpEffect (s.cf = true ∨ s.zf = true) v s t)

/-- The table of 45_control_transfer.md section 3; rests on D9 (log 14), D10 (log 15: flags from the unreduced result) and D12 (log 17). -/
def Obligations.JumpsAfterCmp : Prop :=
  ∀ (m n : Mode) (k j : Word) (s t : State) (v g : Word), val m k s = .ok v → exec (.cmp m k) s = .next t →
    val n j t = .ok g →
    exec (.jz n j) t = .next { t with pc := t.pc + 3#16 } ∧
    exec (.jnz n j) t = .next { t with pc := g } ∧
    exec (.jc n j) t = .next { t with pc := if v.toNat ≤ s.regA.toNat then g else t.pc + 3#16 } ∧
    exec (.jb n j) t = .next { t with pc := if v.toNat ≤ s.regA.toNat then g else t.pc + 3#16 } ∧
    exec (.jbe n j) t = .next { t with pc := if v.toNat ≤ s.regA.toNat then g else t.pc + 3#16 } ∧
    exec (.jnc n j) t = .next { t with pc := if s.regA.toNat < v.toNat then g else t.pc + 3#16 } ∧
    exec (.jae n j) t = .next { t with pc := if s.regA.toNat < v.toNat then g else t.pc + 3#16 } ∧
    exec (.ja n j) t = .next { t with pc := if s.regA.toNat < v.toNat then g else t.pc + 3#16 }

/-- HALT (46_system_io.md). Mode and operand ignored: D27 (log 19); pc unspecified: D13 (log 18); noStep: log 23. -/
def Obligations.HaltEntersHalted : Prop :=
  ∀ (m : Mode) (k : Word) (s : State), ∃ t, exec (.halt m k) s = .next t ∧ t.run = .halted ∧
    RegsKept s t ∧ FlagsKept s t ∧ CellsKept s t ∧ StackKept s t ∧ PortsKept s t ∧
    step t = .refused (.noStep .halted)

/-- NOP (46_system_io.md). D27 (log 19), D12 (log 17). -/
def Obligations.NopOnlyAdvances : Prop :=
  ∀ (m : Mode) (k : Word) (s : State), exec (.nop m k) s = .next { s with pc := s.pc + 3#16 }

/-- READ (46_system_io.md). The 16-bit code is D16 (log 26), the pc wrap D12 (log 17). -/
def Obligations.ReadStoresOneCharacter : Prop :=
  ∀ (m : Mode) (l : LocMode) (k : Word) (s : State) (p : Loc) (c : Word) (rest : List Word),
    locMode m = some l → locOf l k s = .ok p → s.cin = c :: rest →
    ∃ t, exec (.read m k) s = .next t ∧ WroteOnly p c s t ∧ t.cin = rest ∧ t.cout = s.cout ∧
      FlagsKept s t ∧ StackKept s t ∧ Advanced s t

/-- Blocking of READ (46_system_io.md); the waiting step is log 4, D16 log 26, the order of checks D19 (log 21), the pc wrap D12 (log 17). -/
def Obligations.ReadWaitsThenCompletes : Prop :=
  ∀ (m : Mode) (l : LocMode) (k : Word) (s : State), locMode m = some l → s.cin = [] →
    exec (.read m k) s = .next s ∧
    (∀ (p : Loc) (c : Nat), locOf l k s = .ok p → c ≤ 65535 →
      ∃ u t v, s.offer c = some u ∧ exec (.read m k) u = .next t ∧ v.toNat = c ∧ p.read t = .ok v ∧ t.cin = [] ∧
        t.pc = s.pc + 3#16)

/-- PRINT (46_system_io.md). Mode 0 is D8 (log 13), the sink D17 (log 26), the pc wrap D12 (log 17). -/
def Obligations.PrintAppendsOneCharacter : Prop :=
  ∀ (m : Mode) (k : Word) (s : State) (v : Word), val m k s = .ok v →
    ∃ t, exec (.print m k) s = .next t ∧ t.cout = s.cout ++ [v] ∧ t.cin = s.cin ∧
      RegsKept s t ∧ FlagsKept s t ∧ CellsKept s t ∧ StackKept s t ∧ Advanced s t

/-- The silent no-op (40_execution_cycle.md section 2); D7 (log 12), D12 (log 17). -/
def Obligations.UnsupportedModeIsSilentNoOp : Prop :=
  ∀ (i : Instr) (s : State), i.modeSupported = false → exec i s = .next { s with pc := s.pc + 3#16 }

/-- Faults of operands (40_execution_cycle.md section 2); a jump not taken: D18 (log 21); READ's order: D19 (log 21). -/
def Obligations.OperandFaultsAreRaised : Prop :=
  ∀ (i : Instr) (s : State) (f : Fault),
    (i.modeUse = .value → val i.mode i.operand s = .error f → exec i s = .fault f) ∧
    (∀ l, modifiesLocation i = true → locMode i.mode = some l → locRead l i.operand s = .error f →
      exec i s = .fault f) ∧
    (∀ m l k, locMode m = some l → locOf l k s = .error f → exec (.store m k) s = .fault f) ∧
    (∀ m l k c rest, locMode m = some l → locOf l k s = .error f → s.cin = c :: rest →
      exec (.read m k) s = .fault f)

/-- InvalidRegister (60_exceptions.md section 2); the fault is D3 (log 9), the order D19 (log 21). -/
def Obligations.InvalidRegisterExactly : Prop :=
  ∀ (i : Instr) (s : State) (k : Word), exec i s = .fault (.invalidRegister k) ↔
    (k = i.operand ∧ i.usesRegisterId = true ∧ namesRegister k = false ∧ isWaitingRead i s = false)

/-- 60_exceptions.md R244. -/
def Obligations.StackUnderflowExactly : Prop :=
  ∀ (i : Instr) (s : State), exec i s = .fault .stackUnderflow ↔
    (∃ k, i = .pop .register k ∧ namesRegister k = true ∧ s.stk = [])

/-- UninitializedMemoryAccess and WideDataRead (60_exceptions.md section 2); WideDataRead is D6 (log 11). -/
def Obligations.MemoryFaultsOnlyFromReads : Prop :=
  ∀ (i : Instr) (s : State),
    (∀ a, exec i s = .fault (.uninitializedMemoryAccess a) → s.cell a = none ∧
      (i.mode = .registerIndirect ∨ i.mode = .memory) ∧ (i.modeUse = .value ∨ modifiesLocation i = true)) ∧
    (∀ a, exec i s = .fault (.wideDataRead a) → (∃ w, s.cell a = some w ∧ 65535 < w.toNat) ∧
      (i.mode = .registerIndirect ∨ i.mode = .memory) ∧ (i.modeUse = .value ∨ modifiesLocation i = true)) ∧
    (∀ p w, exec i s ≠ .fault (.illegalOpcode p w))

/-- The step (40_execution_cycle.md section 1). -/
def Obligations.StepRunsDecodedInstruction : Prop :=
  ∀ (s : State) (w : InstrWord) (i : Instr), s.run = .running → s.cell s.pc = some w → decode w = .ok i →
    step s = exec i s

/-- Fetch and dispatch faults (40_execution_cycle.md section 1); D4 (log 10); noStep: log 23. -/
def Obligations.StepFaultsWithoutInstruction : Prop :=
  ∀ s : State,
    (s.run = .running → s.cell s.pc = none → step s = .fault (.uninitializedMemoryAccess s.pc)) ∧
    (∀ w, s.run = .running → s.cell s.pc = some w → (w.toNat / 262144 = 0 ∨ 29 ≤ w.toNat / 262144) →
      step s = .fault (.illegalOpcode s.pc w)) ∧
    (s.run ≠ .running → step s = .refused (.noStep s.run))

/-- The step is total in state Running (40_execution_cycle.md section 1); the stop at a set STACK_DEPTH is D15 (log 6). -/
def Obligations.RunningStepIsRefusedOnlyAtStackDepth : Prop :=
  ∀ s : State, s.run = .running →
    (s.params.stackDepth = none → ∀ r, step s ≠ .refused r) ∧
    (∀ r, step s = .refused r ↔ r = .stackDepthReached ∧ ∃ d w k, s.params.stackDepth = some d ∧ d ≤ s.stk.length ∧
      s.cell s.pc = some w ∧ decode w = .ok (.push .register k) ∧ namesRegister k = true)

/-- Faulted(name) (60_exceptions.md section 1, 40_execution_cycle.md section 3). What a fault leaves is D21 (log 22), the taken character D19 (logs 21, 32), noStep log 23. -/
def Obligations.FaultEndsRunShowingNameAndOutput : Prop :=
  ∀ (s : State) (f : Fault), step s = .fault f →
    (∀ n, runFor (n + 1) s = .faulted f.name s.cout) ∧
    (s.enterFaulted f).run = .faulted f.name ∧ (s.enterFaulted f).cout = s.cout ∧
    step (s.enterFaulted f) = .refused (.noStep (.faulted f.name)) ∧
    (∀ w i, s.cell s.pc = some w → decode w = .ok i →
      (takesCharacter i = true → ∃ c, s.cin = c :: (s.enterFaulted f).cin) ∧
      (takesCharacter i = false → (s.enterFaulted f).cin = s.cin)) ∧
    (s.cell s.pc = none → (s.enterFaulted f).cin = s.cin) ∧
    (∀ w e, s.cell s.pc = some w → decode w = .error e → (s.enterFaulted f).cin = s.cin)

/-- How each instruction leaves pc (10_state.md section 2); D12 (log 17); the waiting READ is log 4. -/
def Obligations.ExecMovesPcByThree : Prop :=
  ∀ (i : Instr) (s t : State), exec i s = .next t →
    (isHalt i = false → isJump i = false → isWaitingRead i s = false → t.pc = s.pc + 3#16) ∧
    (isJump i = true → val i.mode i.operand s = .ok t.pc ∨ t.pc = s.pc + 3#16) ∧
    (isHalt i = true → t.run = .halted) ∧ (isHalt i = false → t.run = s.run)

/-- Which instruction writes which flag (10_state.md section 3). -/
def Obligations.OnlyListedInstructionsWriteFlags : Prop :=
  ∀ (i : Instr) (s t : State), exec i s = .next t →
    (writesCf i = false → t.cf = s.cf) ∧ (writesZfSf i = false → t.zf = s.zf ∧ t.sf = s.sf)

/-- Which instructions write memory, and where (20_memory.md section 4). -/
def Obligations.MemoryChangesOnlyAtNamedLocation : Prop :=
  ∀ (i : Instr) (s t : State) (x : Word), exec i s = .next t → t.cell x ≠ s.cell x →
    i.modeUse = .location ∧ ∃ l, locMode i.mode = some l ∧ locOf l i.operand s = .ok (.cell x)

/-- The stack pointer's law (10_state.md section 6; the reduction is D14, log 5), the depth (D15, log 6) and the canonical form (log 1). -/
def Obligations.StepKeepsInvariant : Prop :=
  ∀ s t : State, step s = .next t → t.params = s.params ∧ (s.Inv → t.Inv)

/-- Reset values (10_state.md section 9); SP_INIT is D14 (log 5), STACK_DEPTH D15 (log 6). -/
def Obligations.ResetHasInvariant : Prop :=
  State.reset.Inv ∧ ∀ p : Config.Params, (State.resetFor p).Inv

/-- What a fetch sees after a data write (20_memory.md section 4); rests on D5 (log 1) and D4 (log 10). -/
def Obligations.NoNewExecutableCell : Prop :=
  ∀ (s t : State) (a : Word) (w : InstrWord) (i : Instr),
    Reaches s t → t.cell a = some w → decode w = .ok i → s.cell a = some w

/-- Self-modification (20_memory.md sections 4 and 8); D5 (log 1), D4 (log 10). -/
def Obligations.StoredCellIsNotExecutable : Prop :=
  ∀ (m : Mode) (l : LocMode) (k x : Word) (s t u : State), locMode m = some l → locOf l k s = .ok (.cell x) →
    exec (.store m k) s = .next t → u.run = .running → u.pc = x → u.cell x = t.cell x →
    step u = .fault (.illegalOpcode x (s.regA.setWidth 24))

/-- Hidden state (10_state.md section 8). -/
def Obligations.PresentCellsStayPresent : Prop :=
  ∀ (s t : State) (a : Word), Reaches s t → s.cell a ≠ none → t.cell a ≠ none

/-- Ordering of the character transfers (20_memory.md section 8). -/
def Obligations.StreamsKeepTheirOrder : Prop :=
  ∀ s t : State, Reaches s t → s.cout <+: t.cout ∧ t.cin <:+ s.cin

/-- The stack pointer is bookkeeping only (10_state.md section 6). -/
def Obligations.StackPointerIsUnobservable : Prop :=
  ∀ (s : State) (x : Word),
    (∀ t, step s = .next t → ∃ y, step { s with sp := x } = .next { t with sp := y }) ∧
    (∀ f, step s = .fault f → step { s with sp := x } = .fault f) ∧
    (∀ r, step s = .refused r → step { s with sp := x } = .refused r)

/-- No instruction reads SF (10_state.md section 3). -/
def Obligations.SignFlagIsNeverRead : Prop :=
  ∀ (s : State) (b : Bool),
    (∀ t, step s = .next t → ∃ c, step { s with sf := b } = .next { t with sf := c }) ∧
    (∀ f, step s = .fault f → step { s with sf := b } = .fault f) ∧
    (∀ r, step s = .refused r → step { s with sf := b } = .refused r)

/-- Pass 1 (30_encoding.md section 8); a label bound twice is refused by D25 (log 27). -/
def Obligations.LabelAddressesCountLines : Prop :=
  ∀ (pre post : List SourceLine) (n : List Char) (table : List (List Char × Nat)),
    labelTable 0 (pre ++ .label n :: post) = .ok table →
    table.lookup n = some (3 * pre.countP (fun x => match x with
      | .instr t _ => t != haltName
      | .label _ => false)) ∧
    ((∀ o, SourceLine.instr haltName o ∉ pre) →
      table.lookup n = some (3 * pre.countP (fun x => match x with
        | .instr _ _ => true
        | .label _ => false)))

/-- Pass 2 (30_encoding.md section 8) and what the assembler cannot produce; the accepted lines are D25 (log 27), the image limit D20 (log 25). -/
def Obligations.AssembledWordsAreLegal : Prop :=
  ∀ (source image : List (List Char)), assemble source = .ok image →
    ∃ words : List InstrWord, image = words.map renderWord ∧
      (∀ w ∈ words, ∃ i, decode w = .ok i ∧ i.operandLegal = true) ∧
      (∀ lines, classifyLines source = .ok lines →
        words.length = lines.countP (fun x => match x with
          | .instr _ _ => true
          | .label _ => false)) ∧
      (∀ p cin, words.length ≤ 21846 → ∃ s, boot p image cin = .ok s ∧
        ∀ n, n < words.length → s.mem.read (3 * n) = words[n]?)
end

