-- ==== Sys2Proof/Laws/Codec.lean ====
section
/-! SUPPORT. The field cut undoes the packing (30_encoding.md R81 to R83). -/

namespace Sys2Proof

/-- The value of a packed word (R83). -/
theorem packFields_toNat (o : BitVec 6) (m : BitVec 2) (k : Word) :
    (packFields o m k).toNat = o.toNat * 262144 + m.toNat * 65536 + k.toNat := by
  have ho := o.isLt
  have hm := m.isLt
  have hk := k.isLt
  have h1 : (o ++ m).toNat = o.toNat * 4 + m.toNat := by
    rw [BitVec.toNat_append, ← Nat.shiftLeft_add_eq_or_of_lt (by omega), Nat.shiftLeft_eq]
  simp only [packFields]
  rw [BitVec.toNat_append, ← Nat.shiftLeft_add_eq_or_of_lt (by omega), Nat.shiftLeft_eq, h1]
  omega

/-- The fields of a word as quotients and remainders (R82). -/
theorem opcodeField_toNat (w : InstrWord) : (opcodeField w).toNat = w.toNat / 262144 := by
  have := w.isLt
  simp only [opcodeField, BitVec.extractLsb'_toNat, Nat.shiftRight_eq_div_pow]
  omega

theorem modeField_toNat (w : InstrWord) : (modeField w).toNat = w.toNat / 65536 % 4 := by
  simp only [modeField, BitVec.extractLsb'_toNat, Nat.shiftRight_eq_div_pow]

theorem operandField_toNat (w : InstrWord) : (operandField w).toNat = w.toNat % 65536 := by
  simp only [operandField, BitVec.extractLsb'_toNat, Nat.shiftRight_eq_div_pow,
    Nat.pow_zero, Nat.div_one, Nat.reducePow]

@[simp] theorem opcodeField_packFields (o : BitVec 6) (m : BitVec 2) (k : Word) : opcodeField (packFields o m k) = o := by
  apply BitVec.eq_of_toNat_eq
  rw [opcodeField_toNat, packFields_toNat]
  have hm := m.isLt
  have hk := k.isLt
  omega

@[simp] theorem modeField_packFields (o : BitVec 6) (m : BitVec 2) (k : Word) : modeField (packFields o m k) = m := by
  apply BitVec.eq_of_toNat_eq
  rw [modeField_toNat, packFields_toNat]
  have hm := m.isLt
  have hk := k.isLt
  omega

@[simp] theorem operandField_packFields (o : BitVec 6) (m : BitVec 2) (k : Word) : operandField (packFields o m k) = k := by
  apply BitVec.eq_of_toNat_eq
  rw [operandField_toNat, packFields_toNat]
  have hk := k.isLt
  omega

@[simp] theorem Mode.ofBits_toBits (m : Mode) : Mode.ofBits m.toBits = m := by cases m <;> rfl

theorem Mode.toBits_ofBits (b : BitVec 2) : (Mode.ofBits b).toBits = b := by revert b; decide

end Sys2Proof
end

