-- ==== Sys2Proof/Laws/State.lean ====
section
/-! SUPPORT. What each update of the state does to each field: one lemma per field per update. -/

namespace Sys2Proof.Machine

variable (s : State)

/-! ### setReg -/

@[simp] theorem setReg_params (r : Reg) (v : Word) : (s.setReg r v).params = s.params := by cases r <;> rfl
@[simp] theorem setReg_zf (r : Reg) (v : Word) : (s.setReg r v).zf = s.zf := by cases r <;> rfl
@[simp] theorem setReg_cf (r : Reg) (v : Word) : (s.setReg r v).cf = s.cf := by cases r <;> rfl
@[simp] theorem setReg_sf (r : Reg) (v : Word) : (s.setReg r v).sf = s.sf := by cases r <;> rfl
@[simp] theorem setReg_pc (r : Reg) (v : Word) : (s.setReg r v).pc = s.pc := by cases r <;> rfl
@[simp] theorem setReg_run (r : Reg) (v : Word) : (s.setReg r v).run = s.run := by cases r <;> rfl
@[simp] theorem setReg_mem (r : Reg) (v : Word) : (s.setReg r v).mem = s.mem := by cases r <;> rfl
@[simp] theorem setReg_stk (r : Reg) (v : Word) : (s.setReg r v).stk = s.stk := by cases r <;> rfl
@[simp] theorem setReg_sp (r : Reg) (v : Word) : (s.setReg r v).sp = s.sp := by cases r <;> rfl
@[simp] theorem setReg_cin (r : Reg) (v : Word) : (s.setReg r v).cin = s.cin := by cases r <;> rfl
@[simp] theorem setReg_cout (r : Reg) (v : Word) : (s.setReg r v).cout = s.cout := by cases r <;> rfl
@[simp] theorem setReg_cell (r : Reg) (v : Word) (x : Word) : (s.setReg r v).cell x = s.cell x := by cases r <;> rfl

@[simp] theorem setReg_reg_same (r : Reg) (v : Word) : (s.setReg r v).reg r = v := by cases r <;> rfl

theorem setReg_reg_ne {q r : Reg} (h : q ≠ r) (v : Word) : (s.setReg r v).reg q = s.reg q := by
  cases q <;> cases r <;> first | rfl | exact absurd rfl h

theorem setReg_reg (q r : Reg) (v : Word) : (s.setReg r v).reg q = if q = r then v else s.reg q := by
  cases q <;> cases r <;> rfl

/-- Writing a register's own value back changes nothing. -/
@[simp] theorem setReg_self (r : Reg) : s.setReg r (s.reg r) = s := by cases r <;> rfl

/-! ### setPc -/

@[simp] theorem setPc_params (t : Word) : (s.setPc t).params = s.params := rfl
@[simp] theorem setPc_regA (t : Word) : (s.setPc t).regA = s.regA := rfl
@[simp] theorem setPc_regB (t : Word) : (s.setPc t).regB = s.regB := rfl
@[simp] theorem setPc_regC (t : Word) : (s.setPc t).regC = s.regC := rfl
@[simp] theorem setPc_regD (t : Word) : (s.setPc t).regD = s.regD := rfl
@[simp] theorem setPc_regE (t : Word) : (s.setPc t).regE = s.regE := rfl
@[simp] theorem setPc_zf (t : Word) : (s.setPc t).zf = s.zf := rfl
@[simp] theorem setPc_cf (t : Word) : (s.setPc t).cf = s.cf := rfl
@[simp] theorem setPc_sf (t : Word) : (s.setPc t).sf = s.sf := rfl
@[simp] theorem setPc_pc (t : Word) : (s.setPc t).pc = t := rfl
@[simp] theorem setPc_run (t : Word) : (s.setPc t).run = s.run := rfl
@[simp] theorem setPc_mem (t : Word) : (s.setPc t).mem = s.mem := rfl
@[simp] theorem setPc_stk (t : Word) : (s.setPc t).stk = s.stk := rfl
@[simp] theorem setPc_sp (t : Word) : (s.setPc t).sp = s.sp := rfl
@[simp] theorem setPc_cin (t : Word) : (s.setPc t).cin = s.cin := rfl
@[simp] theorem setPc_cout (t : Word) : (s.setPc t).cout = s.cout := rfl
@[simp] theorem setPc_reg (t : Word) (q : Reg) : (s.setPc t).reg q = s.reg q := by cases q <;> rfl
@[simp] theorem setPc_cell (t : Word) (x : Word) : (s.setPc t).cell x = s.cell x := rfl

/-! ### advance -/

@[simp] theorem advance_params : (s.advance).params = s.params := rfl
@[simp] theorem advance_regA : (s.advance).regA = s.regA := rfl
@[simp] theorem advance_regB : (s.advance).regB = s.regB := rfl
@[simp] theorem advance_regC : (s.advance).regC = s.regC := rfl
@[simp] theorem advance_regD : (s.advance).regD = s.regD := rfl
@[simp] theorem advance_regE : (s.advance).regE = s.regE := rfl
@[simp] theorem advance_zf : (s.advance).zf = s.zf := rfl
@[simp] theorem advance_cf : (s.advance).cf = s.cf := rfl
@[simp] theorem advance_sf : (s.advance).sf = s.sf := rfl
@[simp] theorem advance_pc : (s.advance).pc = s.pc + 3#16 := rfl
@[simp] theorem advance_run : (s.advance).run = s.run := rfl
@[simp] theorem advance_mem : (s.advance).mem = s.mem := rfl
@[simp] theorem advance_stk : (s.advance).stk = s.stk := rfl
@[simp] theorem advance_sp : (s.advance).sp = s.sp := rfl
@[simp] theorem advance_cin : (s.advance).cin = s.cin := rfl
@[simp] theorem advance_cout : (s.advance).cout = s.cout := rfl
@[simp] theorem advance_reg (q : Reg) : (s.advance).reg q = s.reg q := by cases q <;> rfl
@[simp] theorem advance_cell (x : Word) : (s.advance).cell x = s.cell x := rfl

/-! ### memWrite -/

@[simp] theorem memWrite_params (a v : Word) : (memWrite a v s).params = s.params := rfl
@[simp] theorem memWrite_regA (a v : Word) : (memWrite a v s).regA = s.regA := rfl
@[simp] theorem memWrite_regB (a v : Word) : (memWrite a v s).regB = s.regB := rfl
@[simp] theorem memWrite_regC (a v : Word) : (memWrite a v s).regC = s.regC := rfl
@[simp] theorem memWrite_regD (a v : Word) : (memWrite a v s).regD = s.regD := rfl
@[simp] theorem memWrite_regE (a v : Word) : (memWrite a v s).regE = s.regE := rfl
@[simp] theorem memWrite_zf (a v : Word) : (memWrite a v s).zf = s.zf := rfl
@[simp] theorem memWrite_cf (a v : Word) : (memWrite a v s).cf = s.cf := rfl
@[simp] theorem memWrite_sf (a v : Word) : (memWrite a v s).sf = s.sf := rfl
@[simp] theorem memWrite_pc (a v : Word) : (memWrite a v s).pc = s.pc := rfl
@[simp] theorem memWrite_run (a v : Word) : (memWrite a v s).run = s.run := rfl
@[simp] theorem memWrite_mem (a v : Word) : (memWrite a v s).mem = s.mem.write a.toNat (v.setWidth 24) := rfl
@[simp] theorem memWrite_stk (a v : Word) : (memWrite a v s).stk = s.stk := rfl
@[simp] theorem memWrite_sp (a v : Word) : (memWrite a v s).sp = s.sp := rfl
@[simp] theorem memWrite_cin (a v : Word) : (memWrite a v s).cin = s.cin := rfl
@[simp] theorem memWrite_cout (a v : Word) : (memWrite a v s).cout = s.cout := rfl
@[simp] theorem memWrite_reg (a v : Word) (q : Reg) : (memWrite a v s).reg q = s.reg q := by cases q <;> rfl

/-! ### push -/

@[simp] theorem push_params (v : Word) : (push v s).params = s.params := rfl
@[simp] theorem push_regA (v : Word) : (push v s).regA = s.regA := rfl
@[simp] theorem push_regB (v : Word) : (push v s).regB = s.regB := rfl
@[simp] theorem push_regC (v : Word) : (push v s).regC = s.regC := rfl
@[simp] theorem push_regD (v : Word) : (push v s).regD = s.regD := rfl
@[simp] theorem push_regE (v : Word) : (push v s).regE = s.regE := rfl
@[simp] theorem push_zf (v : Word) : (push v s).zf = s.zf := rfl
@[simp] theorem push_cf (v : Word) : (push v s).cf = s.cf := rfl
@[simp] theorem push_sf (v : Word) : (push v s).sf = s.sf := rfl
@[simp] theorem push_pc (v : Word) : (push v s).pc = s.pc := rfl
@[simp] theorem push_run (v : Word) : (push v s).run = s.run := rfl
@[simp] theorem push_mem (v : Word) : (push v s).mem = s.mem := rfl
@[simp] theorem push_stk (v : Word) : (push v s).stk = s.stk ++ [v] := rfl
@[simp] theorem push_sp (v : Word) : (push v s).sp = s.sp - 2#16 := rfl
@[simp] theorem push_cin (v : Word) : (push v s).cin = s.cin := rfl
@[simp] theorem push_cout (v : Word) : (push v s).cout = s.cout := rfl
@[simp] theorem push_reg (v : Word) (q : Reg) : (push v s).reg q = s.reg q := by cases q <;> rfl
@[simp] theorem push_cell (v : Word) (x : Word) : (push v s).cell x = s.cell x := rfl

/-! ### charOut -/

@[simp] theorem charOut_params (v : Word) : (charOut v s).params = s.params := rfl
@[simp] theorem charOut_regA (v : Word) : (charOut v s).regA = s.regA := rfl
@[simp] theorem charOut_regB (v : Word) : (charOut v s).regB = s.regB := rfl
@[simp] theorem charOut_regC (v : Word) : (charOut v s).regC = s.regC := rfl
@[simp] theorem charOut_regD (v : Word) : (charOut v s).regD = s.regD := rfl
@[simp] theorem charOut_regE (v : Word) : (charOut v s).regE = s.regE := rfl
@[simp] theorem charOut_zf (v : Word) : (charOut v s).zf = s.zf := rfl
@[simp] theorem charOut_cf (v : Word) : (charOut v s).cf = s.cf := rfl
@[simp] theorem charOut_sf (v : Word) : (charOut v s).sf = s.sf := rfl
@[simp] theorem charOut_pc (v : Word) : (charOut v s).pc = s.pc := rfl
@[simp] theorem charOut_run (v : Word) : (charOut v s).run = s.run := rfl
@[simp] theorem charOut_mem (v : Word) : (charOut v s).mem = s.mem := rfl
@[simp] theorem charOut_stk (v : Word) : (charOut v s).stk = s.stk := rfl
@[simp] theorem charOut_sp (v : Word) : (charOut v s).sp = s.sp := rfl
@[simp] theorem charOut_cin (v : Word) : (charOut v s).cin = s.cin := rfl
@[simp] theorem charOut_cout (v : Word) : (charOut v s).cout = s.cout ++ [v] := rfl
@[simp] theorem charOut_reg (v : Word) (q : Reg) : (charOut v s).reg q = s.reg q := by cases q <;> rfl
@[simp] theorem charOut_cell (v : Word) (x : Word) : (charOut v s).cell x = s.cell x := rfl

/-! ### setArithFlags -/

@[simp] theorem setArithFlags_params (x : ArithResult) : (s.setArithFlags x).params = s.params := rfl
@[simp] theorem setArithFlags_regA (x : ArithResult) : (s.setArithFlags x).regA = s.regA := rfl
@[simp] theorem setArithFlags_regB (x : ArithResult) : (s.setArithFlags x).regB = s.regB := rfl
@[simp] theorem setArithFlags_regC (x : ArithResult) : (s.setArithFlags x).regC = s.regC := rfl
@[simp] theorem setArithFlags_regD (x : ArithResult) : (s.setArithFlags x).regD = s.regD := rfl
@[simp] theorem setArithFlags_regE (x : ArithResult) : (s.setArithFlags x).regE = s.regE := rfl
@[simp] theorem setArithFlags_zf (x : ArithResult) : (s.setArithFlags x).zf = x.zf := rfl
@[simp] theorem setArithFlags_cf (x : ArithResult) : (s.setArithFlags x).cf = x.cf := rfl
@[simp] theorem setArithFlags_sf (x : ArithResult) : (s.setArithFlags x).sf = x.sf := rfl
@[simp] theorem setArithFlags_pc (x : ArithResult) : (s.setArithFlags x).pc = s.pc := rfl
@[simp] theorem setArithFlags_run (x : ArithResult) : (s.setArithFlags x).run = s.run := rfl
@[simp] theorem setArithFlags_mem (x : ArithResult) : (s.setArithFlags x).mem = s.mem := rfl
@[simp] theorem setArithFlags_stk (x : ArithResult) : (s.setArithFlags x).stk = s.stk := rfl
@[simp] theorem setArithFlags_sp (x : ArithResult) : (s.setArithFlags x).sp = s.sp := rfl
@[simp] theorem setArithFlags_cin (x : ArithResult) : (s.setArithFlags x).cin = s.cin := rfl
@[simp] theorem setArithFlags_cout (x : ArithResult) : (s.setArithFlags x).cout = s.cout := rfl
@[simp] theorem setArithFlags_reg (x : ArithResult) (q : Reg) : (s.setArithFlags x).reg q = s.reg q := by cases q <;> rfl
@[simp] theorem setArithFlags_cell (y : ArithResult) (x : Word) : (s.setArithFlags y).cell x = s.cell x := rfl

/-! ### setLogicFlags -/

@[simp] theorem setLogicFlags_params (x : Word) : (s.setLogicFlags x).params = s.params := rfl
@[simp] theorem setLogicFlags_regA (x : Word) : (s.setLogicFlags x).regA = s.regA := rfl
@[simp] theorem setLogicFlags_regB (x : Word) : (s.setLogicFlags x).regB = s.regB := rfl
@[simp] theorem setLogicFlags_regC (x : Word) : (s.setLogicFlags x).regC = s.regC := rfl
@[simp] theorem setLogicFlags_regD (x : Word) : (s.setLogicFlags x).regD = s.regD := rfl
@[simp] theorem setLogicFlags_regE (x : Word) : (s.setLogicFlags x).regE = s.regE := rfl
@[simp] theorem setLogicFlags_zf (x : Word) : (s.setLogicFlags x).zf = logicZf x := rfl
@[simp] theorem setLogicFlags_cf (x : Word) : (s.setLogicFlags x).cf = s.cf := rfl
@[simp] theorem setLogicFlags_sf (x : Word) : (s.setLogicFlags x).sf = logicSf x := rfl
@[simp] theorem setLogicFlags_pc (x : Word) : (s.setLogicFlags x).pc = s.pc := rfl
@[simp] theorem setLogicFlags_run (x : Word) : (s.setLogicFlags x).run = s.run := rfl
@[simp] theorem setLogicFlags_mem (x : Word) : (s.setLogicFlags x).mem = s.mem := rfl
@[simp] theorem setLogicFlags_stk (x : Word) : (s.setLogicFlags x).stk = s.stk := rfl
@[simp] theorem setLogicFlags_sp (x : Word) : (s.setLogicFlags x).sp = s.sp := rfl
@[simp] theorem setLogicFlags_cin (x : Word) : (s.setLogicFlags x).cin = s.cin := rfl
@[simp] theorem setLogicFlags_cout (x : Word) : (s.setLogicFlags x).cout = s.cout := rfl
@[simp] theorem setLogicFlags_reg (x : Word) (q : Reg) : (s.setLogicFlags x).reg q = s.reg q := by cases q <;> rfl
@[simp] theorem setLogicFlags_cell (y : Word) (x : Word) : (s.setLogicFlags y).cell x = s.cell x := rfl

end Sys2Proof.Machine
end

