-- ==== Sys2Proof/Laws/Memory.lean ====
section
/-! SUPPORT. Memory cells: read after write, and the canonical form is kept (20_memory.md R50, R52, R57). -/

namespace Sys2Proof.Machine

@[simp] theorem Memory.read_nil (a : Nat) : Memory.read [] a = none := rfl

theorem Memory.read_cons (c : Nat × InstrWord) (m : Memory) (a : Nat) :
    Memory.read (c :: m) a = if c.1 = a then some c.2 else Memory.read m a := rfl

/-- The written cell reads back. -/
@[simp] theorem Memory.read_write_same (m : Memory) (a : Nat) (v : InstrWord) : (m.write a v).read a = some v := by
  induction m with
  | nil => simp [Memory.write, Memory.read]
  | cons c m ih =>
    obtain ⟨b, w⟩ := c
    simp only [Memory.write]
    split
    · simp [Memory.read]
    · split
      · simp [Memory.read]
      · rename_i h1 h2
        simp [Memory.read, Ne.symm h2, ih]

/-- Every other cell reads as before. -/
theorem Memory.read_write_ne (m : Memory) {a x : Nat} (h : x ≠ a) (v : InstrWord) : (m.write a v).read x = m.read x := by
  induction m with
  | nil => simp [Memory.write, Memory.read, Ne.symm h]
  | cons c m ih =>
    obtain ⟨b, w⟩ := c
    simp only [Memory.write]
    split
    · simp [Memory.read, Ne.symm h]
    · split
      · rename_i h1 h2
        subst h2
        simp [Memory.read, Ne.symm h]
      · simp only [Memory.read, ih]

theorem Memory.read_write (m : Memory) (a x : Nat) (v : InstrWord) :
    (m.write a v).read x = if x = a then some v else m.read x := by
  split
  · rename_i h; subst h; simp
  · exact Memory.read_write_ne m ‹_› v

/-- The entries of a written memory: the written one, or old ones. -/
theorem Memory.mem_write {m : Memory} {a : Nat} {v : InstrWord} {c : Nat × InstrWord} (h : c ∈ m.write a v) :
    c = (a, v) ∨ c ∈ m := by
  induction m with
  | nil => simpa [Memory.write] using h
  | cons d m ih =>
    obtain ⟨b, w⟩ := d
    simp only [Memory.write] at h
    split at h
    · simpa using h
    · split at h
      · rcases List.mem_cons.mp h with h | h
        · exact .inl h
        · exact .inr (List.mem_cons_of_mem _ h)
      · rcases List.mem_cons.mp h with h | h
        · exact .inr (h ▸ List.mem_cons_self ..)
        · exact (ih h).imp id (List.mem_cons_of_mem _)

@[simp] theorem Memory.wf_nil : Memory.wf [] := ⟨List.Pairwise.nil, by simp⟩

/-- A write at an address of the address space keeps the canonical form. -/
theorem Memory.wf_write {m : Memory} (h : m.wf) {a : Nat} (ha : a < 65536) (v : InstrWord) : (m.write a v).wf := by
  refine ⟨?_, fun c hc => ?_⟩
  · have hp := h.1
    clear h
    induction m with
    | nil => simp [Memory.write]
    | cons d m ih =>
      obtain ⟨b, w⟩ := d
      obtain ⟨hd, hm⟩ := List.pairwise_cons.mp hp
      simp only [Memory.write]
      split
      · rename_i hab
        refine List.pairwise_cons.mpr ⟨fun c hc => ?_, hp⟩
        rcases List.mem_cons.mp hc with rfl | hc
        · exact hab
        · exact lt_trans hab (hd c hc)
      · split
        · rename_i h2
          subst h2
          exact List.pairwise_cons.mpr ⟨hd, hm⟩
        · refine List.pairwise_cons.mpr ⟨fun c hc => ?_, ih hm⟩
          rcases Memory.mem_write hc with rfl | hc
          · show b < a
            omega
          · exact hd c hc
  · rcases Memory.mem_write hc with rfl | hc
    · exact ha
    · exact h.2 c hc

/-- The reset memory has the canonical form. -/
theorem reset_mem_wf : State.reset.mem.wf := Memory.wf_nil

/-- A data write keeps the canonical form. -/
theorem memWrite_wf {s : State} (h : s.mem.wf) (a v : Word) : (memWrite a v s).mem.wf :=
  Memory.wf_write h a.isLt _

/-- What a cell reads as after a data write (R57). -/
theorem memWrite_cell (s : State) (a v x : Word) :
    (memWrite a v s).cell x = if x = a then some (v.setWidth 24) else s.cell x := by
  simp only [State.cell, memWrite, Memory.read_write, BitVec.toNat_inj]

/-- Present cells have addresses below 65536 in a canonical memory. -/
theorem Memory.read_some_mem {m : Memory} {a : Nat} {w : InstrWord} (h : m.read a = some w) : (a, w) ∈ m := by
  induction m with
  | nil => simp at h
  | cons c m ih =>
    rw [Memory.read_cons] at h
    split at h
    · rename_i hc
      obtain ⟨b, x⟩ := c
      simp_all
    · exact List.mem_cons_of_mem _ (ih h)

theorem Memory.read_none_of_lt {m : Memory} {a : Nat} (h : ∀ c ∈ m, a < c.1) : m.read a = none := by
  induction m with
  | nil => rfl
  | cons c m ih =>
    rw [Memory.read_cons, if_neg (Nat.ne_of_gt (h c (List.mem_cons_self ..)))]
    exact ih fun d hd => h d (List.mem_cons_of_mem _ hd)

/-- Equal cells at every address, equal memories: the canonical form is unique. -/
theorem Memory.ext_of_read {m n : Memory} (hm : m.wf) (hn : n.wf) (h : ∀ a, m.read a = n.read a) : m = n := by
  have hmp := hm.1
  have hnp := hn.1
  clear hm hn
  induction m generalizing n with
  | nil =>
    cases n with
    | nil => rfl
    | cons d n => have := h d.1; simp [Memory.read_cons] at this
  | cons c m ih =>
    cases n with
    | nil => have := h c.1; simp [Memory.read_cons] at this
    | cons d n =>
      obtain ⟨hc, hm⟩ := List.pairwise_cons.mp hmp
      obtain ⟨hd, hn⟩ := List.pairwise_cons.mp hnp
      have key : c.1 = d.1 := by
        rcases lt_trichotomy c.1 d.1 with hlt | heq | hgt
        · have h1 := h c.1
          rw [Memory.read_none_of_lt (m := d :: n) (by
            intro x hx
            rcases List.mem_cons.mp hx with rfl | hx
            · exact hlt
            · exact lt_trans hlt (hd x hx))] at h1
          simp [Memory.read_cons] at h1
        · exact heq
        · have h1 := h d.1
          rw [Memory.read_none_of_lt (m := c :: m) (by
            intro x hx
            rcases List.mem_cons.mp hx with rfl | hx
            · exact hgt
            · exact lt_trans hgt (hc x hx))] at h1
          simp [Memory.read_cons] at h1
      have hv : c.2 = d.2 := by
        have h1 := h c.1
        simpa [Memory.read_cons, key] using h1
      have hcd : c = d := Prod.ext key hv
      subst hcd
      rw [ih (n := n) ?_ hm hn]
      intro a
      have h1 := h a
      rw [Memory.read_cons, Memory.read_cons] at h1
      by_cases ha : c.1 = a
      · subst ha
        rw [Memory.read_none_of_lt hc, Memory.read_none_of_lt hd]
      · simpa [ha] using h1

end Sys2Proof.Machine
end

