-- ==== Sys2Proof/Laws/Ops.lean ====
section
/-! SUPPORT. What each shared operation of Machine/Ops.lean can do, said once. -/

namespace Sys2Proof.Machine

@[simp] theorem orFault_ok {α : Type} (a : α) (f : α → Out) : orFault (.ok a) f = f a := rfl

@[simp] theorem orFault_error {α : Type} (e : Fault) (f : α → Out) : orFault (.error e) f = .fault e := rfl

/-- A next state comes only through a value. -/
theorem orFault_next {α : Type} {x : Except Fault α} {f : α → Out} {t : State} (h : orFault x f = .next t) :
    ∃ a, x = .ok a ∧ f a = .next t := by
  cases x with
  | ok a => exact ⟨a, rfl, h⟩
  | error e => cases h

theorem fallThrough_next {s t : State} (h : fallThrough s = .next t) : t = s.advance := by cases h; rfl

theorem jumpTo_next {a : Word} {s t : State} (h : jumpTo a s = .next t) : t = s.setPc a := by cases h; rfl

theorem silentNoOp_next {s t : State} (h : silentNoOp s = .next t) : t = s.advance := by cases h; rfl

theorem awaitChar_next {s t : State} (h : awaitChar s = .next t) : t = s := by cases h; rfl

theorem enterHalted_next {s t : State} (h : enterHalted s = .next t) : t = { s with run := .halted } := by cases h; rfl

/-- The fetch answers the cell, or the fault of an absent one (R55). -/
theorem memFetch_eq (a : Word) (s : State) :
    (∃ w, s.cell a = some w ∧ memFetch a s = .ok w) ∨
    (s.cell a = none ∧ memFetch a s = .error (.uninitializedMemoryAccess a)) := by
  unfold memFetch
  cases s.cell a with
  | none => exact .inr ⟨rfl, rfl⟩
  | some w => exact .inl ⟨w, rfl, rfl⟩

/-- A data read answers exactly one of these (R56). -/
theorem memRead_cases (a : Word) (s : State) :
    (s.cell a = none ∧ memRead a s = .error (.uninitializedMemoryAccess a)) ∨
    (∃ w, s.cell a = some w ∧ 65535 < w.toNat ∧ memRead a s = .error (.wideDataRead a)) ∨
    (∃ w, s.cell a = some w ∧ w.toNat ≤ 65535 ∧ memRead a s = .ok (w.setWidth 16)) := by
  unfold memRead
  cases s.cell a with
  | none => exact .inl ⟨rfl, rfl⟩
  | some w =>
    by_cases h : 65535 < w.toNat
    · exact .inr (.inl ⟨w, rfl, h, by simp [h]⟩)
    · exact .inr (.inr ⟨w, rfl, by omega, by simp [h]⟩)

/-- A cell that holds a 16-bit value reads as it. -/
theorem memRead_of_cell {a v : Word} {s : State} (h : s.cell a = some (v.setWidth 24)) : memRead a s = .ok v := by
  have hv := v.isLt
  have h1 : ¬ 65535 < (v.setWidth 24).toNat := by
    rw [BitVec.toNat_setWidth, Nat.mod_eq_of_lt (by omega)]; omega
  simp only [memRead, h, if_neg h1]
  congr 1
  apply BitVec.eq_of_toNat_eq
  simp only [BitVec.toNat_setWidth]
  omega

/-- A data write reads back (20_memory.md R65). -/
@[simp] theorem memRead_memWrite_same (a v : Word) (s : State) : memRead a (memWrite a v s) = .ok v :=
  memRead_of_cell (by simp [memWrite_cell])

theorem memRead_memWrite_ne {a b : Word} (h : b ≠ a) (v : Word) (s : State) : memRead b (memWrite a v s) = memRead b s := by
  simp [memRead, memWrite_cell, h]

/-- There is room unless the depth is set and reached (R61). -/
theorem hasRoom_iff (s : State) : s.hasRoom = true ↔ ∀ d, s.params.stackDepth = some d → s.stk.length < d := by
  unfold State.hasRoom
  cases s.params.stackDepth with
  | none => simp
  | some d => simp

/-- A push answers exactly one of these. -/
theorem pushOrStop_cases (v : Word) (s : State) :
    (s.hasRoom = true ∧ pushOrStop v s = .next (push v s).advance) ∨
    (s.hasRoom = false ∧ pushOrStop v s = .refused .stackDepthReached) := by
  unfold pushOrStop
  cases s.hasRoom with
  | true => exact .inl ⟨rfl, rfl⟩
  | false => exact .inr ⟨rfl, rfl⟩

theorem pushOrStop_next {v : Word} {s t : State} (h : pushOrStop v s = .next t) :
    s.hasRoom = true ∧ t = (push v s).advance := by
  obtain ⟨hr, he⟩ | ⟨_, he⟩ := pushOrStop_cases v s <;> rw [he] at h <;> cases h
  exact ⟨hr, rfl⟩

/-- A pop answers exactly one of these (R63). -/
theorem pop_cases (s : State) :
    (s.stk = [] ∧ pop s = .error .stackUnderflow) ∨
    (∃ rest v, s.stk = rest ++ [v] ∧ pop s = .ok (v, { s with stk := rest, sp := s.sp + 2#16 })) := by
  rcases List.eq_nil_or_concat s.stk with h | ⟨rest, v, h⟩
  · exact .inl ⟨h, by simp [pop, h]⟩
  · rw [List.concat_eq_append] at h
    exact .inr ⟨rest, v, h, by simp [pop, h]⟩

@[simp] theorem pop_push (v : Word) (s : State) : pop (push v s) = .ok (v, s) := by
  have h : s.sp - 2#16 + 2#16 = s.sp := by simp
  simp [pop, push, h]

/-- A character is taken, or there is none (10_state.md R34). -/
theorem charIn_cases (s : State) :
    (s.cin = [] ∧ charIn s = none) ∨
    (∃ c rest, s.cin = c :: rest ∧ charIn s = some (c, { s with cin := rest })) := by
  unfold charIn
  cases s.cin with
  | nil => exact .inl ⟨rfl, rfl⟩
  | cons c rest => exact .inr ⟨c, rest, rfl, rfl⟩

/-- The environment's delivery changes `cin` only (R280). -/
theorem offer_eq_some {n : Nat} {s t : State} (h : s.offer n = some t) :
    n ≤ 65535 ∧ t = { s with cin := s.cin ++ [BitVec.ofNat 16 n] } := by
  unfold State.offer at h
  split at h
  · exact ⟨‹_›, by simpa using h.symm⟩
  · cases h

end Sys2Proof.Machine
end

