-- ==== Sys2Proof/Laws/Flags.lean ====
section
/-! SUPPORT. What the carry rule answers (42_arithmetic.md R150 to R152). -/

namespace Sys2Proof.Machine

/-- Without a carry the result is the raw one (R150). -/
theorem arith_of_le {raw : Int} (h : raw ≤ 65535) : arith raw = arithFlags false raw := if_neg (not_lt.mpr h)

/-- With a carry 65535 is taken once (R150). -/
theorem arith_of_gt {raw : Int} (h : 65535 < raw) : arith raw = arithFlags true (raw - 65535) := if_pos h

/-- CF reports that the raw result exceeds 65535 (R150). -/
theorem arith_cf (raw : Int) : (arith raw).cf = true ↔ 65535 < raw := by
  rcases le_or_gt raw 65535 with h | h
  · simp [arith_of_le h, arithFlags, h]
  · simp [arith_of_gt h, arithFlags, h]

/-- ZF reports a result of exactly 0, which only a raw 0 gives (R150, R158). -/
theorem arith_zf (raw : Int) : (arith raw).zf = true ↔ raw = 0 := by
  rcases le_or_gt raw 65535 with h | h
  · simp [arith_of_le h, arithFlags]
  · simp only [arith_of_gt h, arithFlags, decide_eq_true_eq]; omega

/-- The result (R150). -/
theorem arith_res (raw : Int) : (arith raw).res = if 65535 < raw then raw - 65535 else raw := by
  rcases le_or_gt raw 65535 with h | h
  · rw [arith_of_le h, if_neg (not_lt.mpr h)]; rfl
  · rw [arith_of_gt h, if_pos h]; rfl

/-- SF reports bit 15 of the result (R150, R152). -/
theorem arith_sf (raw : Int) : (arith raw).sf = true ↔ 32768 ≤ (arith raw).res % 65536 := by
  rcases le_or_gt raw 65535 with h | h
  · simp [arith_of_le h, arithFlags]
  · simp [arith_of_gt h, arithFlags]

/-- The stored value is the result modulo 65536 (R151). -/
theorem stored_toNat (r : ArithResult) : (r.stored.toNat : Int) = r.res % 65536 := by
  have h : (0 : Int) ≤ r.res % 65536 := Int.emod_nonneg _ (by decide)
  simp [ArithResult.stored, BitVec.toNat_ofInt, h]

@[simp] theorem logicZf_iff (r : Word) : logicZf r = true ↔ r = 0#16 := by simp [logicZf]

@[simp] theorem logicSf_iff (r : Word) : logicSf r = true ↔ 32768 ≤ r.toNat := by simp [logicSf]

theorem not16_toNat (v : Word) : (not16 v).toNat = 65535 - v.toNat := by
  simp [not16, BitVec.toNat_not]

theorem half_toNat (v : Word) : (half v).toNat = v.toNat / 2 := by
  simp [half, Nat.shiftRight_eq_div_pow]

end Sys2Proof.Machine
end

