-- ==== Sys2Proof/Laws/Operands.lean ====
section
/-! SUPPORT. What each operand primitive can do (40_execution_cycle.md R124 to R128), said once. -/

namespace Sys2Proof.Machine

@[simp] theorem regOf_one : regOf 1#16 = .ok .A := rfl
@[simp] theorem regOf_two : regOf 2#16 = .ok .B := rfl
@[simp] theorem regOf_three : regOf 3#16 = .ok .C := rfl
@[simp] theorem regOf_four : regOf 4#16 = .ok .D := rfl
@[simp] theorem regOf_five : regOf 5#16 = .ok .E := rfl

/-- `Reg(k)` names a register exactly for the identifiers 1 to 5 (R124). -/
theorem regOf_cases (k : Word) :
    (namesRegister k = true ∧ ∃ r, regOf k = .ok r) ∨
    (namesRegister k = false ∧ regOf k = .error (.invalidRegister k)) := by
  unfold regOf namesRegister
  split <;> rename_i h <;> simp_all
  omega

/-- The only fault of `Reg` is InvalidRegister of its operand. -/
theorem regOf_error {k : Word} {f : Fault} (h : regOf k = .error f) : f = .invalidRegister k := by
  rcases regOf_cases k with ⟨_, r, hr⟩ | ⟨_, hr⟩
  · rw [hr] at h; cases h
  · rw [hr] at h; cases h; rfl

@[simp] theorem val_immediate (k : Word) (s : State) : val .immediate k s = .ok k := rfl
@[simp] theorem val_memory (k : Word) (s : State) : val .memory k s = memRead k s := rfl

theorem val_register {k : Word} {r : Reg} (h : regOf k = .ok r) (s : State) : val .register k s = .ok (s.reg r) := by
  simp [val, h]

theorem val_registerIndirect {k : Word} {r : Reg} (h : regOf k = .ok r) (s : State) :
    val .registerIndirect k s = memRead (s.reg r) s := by
  simp [val, h]

/-- `LocRead(m, k)` equals `Val(m, k)` in the modes that name a location (R126). -/
theorem locRead_eq_val {m : Mode} {l : LocMode} (h : locMode m = some l) (k : Word) (s : State) :
    locRead l k s = val m k s := by
  cases m <;> cases h <;> simp only [locRead, locOf, val]
  · cases regOf k <;> rfl
  · cases regOf k <;> rfl
  · rfl

/-- A location write that answers a state wrote exactly the location. -/
theorem locWrite_ok {l : LocMode} {k v : Word} {s t : State} (h : locWrite l k v s = .ok t) :
    ∃ p, locOf l k s = .ok p ∧ t = p.write v s := by
  unfold locWrite at h
  cases hp : locOf l k s with
  | ok p => rw [hp] at h; cases h; exact ⟨p, rfl, rfl⟩
  | error f => rw [hp] at h; cases h

theorem locWrite_of_locOf {l : LocMode} {k : Word} {s : State} {p : Loc} (h : locOf l k s = .ok p) (v : Word) :
    locWrite l k v s = .ok (p.write v s) := by
  simp [locWrite, h]

theorem locRead_of_locOf {l : LocMode} {k : Word} {s : State} {p : Loc} (h : locOf l k s = .ok p) :
    locRead l k s = p.read s := by
  simp [locRead, h]

/-- A location read that answers a value read the location. -/
theorem locRead_ok {l : LocMode} {k v : Word} {s : State} (h : locRead l k s = .ok v) :
    ∃ p, locOf l k s = .ok p ∧ p.read s = .ok v := by
  unfold locRead at h
  cases hp : locOf l k s with
  | ok p => rw [hp] at h; exact ⟨p, rfl, h⟩
  | error f => rw [hp] at h; cases h

@[simp] theorem Loc.write_params (p : Loc) (v : Word) (s : State) : (p.write v s).params = s.params := by
  cases p with
  | reg r => exact setReg_params s r v
  | cell a => rfl

/-- What a write of a location leaves alone, and what it writes. -/
theorem Loc.write_frame (p : Loc) (v : Word) (s : State) :
    (p.write v s).pc = s.pc ∧ (p.write v s).run = s.run ∧ (p.write v s).stk = s.stk ∧ (p.write v s).sp = s.sp ∧
    (p.write v s).cin = s.cin ∧ (p.write v s).cout = s.cout ∧
    (p.write v s).zf = s.zf ∧ (p.write v s).cf = s.cf ∧ (p.write v s).sf = s.sf ∧
    (∀ q, p ≠ .reg q → (p.write v s).reg q = s.reg q) ∧
    (∀ a, p ≠ .cell a → (p.write v s).cell a = s.cell a) := by
  cases p with
  | reg r =>
    refine ⟨by simp [Loc.write], by simp [Loc.write], by simp [Loc.write], by simp [Loc.write], by simp [Loc.write],
      by simp [Loc.write], by simp [Loc.write], by simp [Loc.write], by simp [Loc.write], fun q h => ?_, by simp [Loc.write]⟩
    exact setReg_reg_ne s (fun e => h (by rw [e])) v
  | cell a =>
    refine ⟨rfl, rfl, rfl, rfl, rfl, rfl, rfl, rfl, rfl, fun q _ => by simp [Loc.write], fun x h => ?_⟩
    simp only [Loc.write, memWrite_cell]
    rw [if_neg]
    exact fun e => h (by rw [e])

/-- A written location reads back. -/
@[simp] theorem Loc.read_write (p : Loc) (v : Word) (s : State) : p.read (p.write v s) = .ok v := by
  cases p <;> simp [Loc.read, Loc.write]

theorem Loc.write_wf (p : Loc) (v : Word) {s : State} (h : s.mem.wf) : (p.write v s).mem.wf := by
  cases p with
  | reg r => simpa [Loc.write] using h
  | cell a => exact memWrite_wf h a v

@[simp] theorem onLocation_immediate (s : State) (f : LocMode → Out) : onLocation .immediate s f = .next s.advance := rfl
@[simp] theorem onLocation_register (s : State) (f : LocMode → Out) : onLocation .register s f = f .register := rfl
@[simp] theorem onLocation_registerIndirect (s : State) (f : LocMode → Out) :
    onLocation .registerIndirect s f = f .registerIndirect := rfl
@[simp] theorem onLocation_memory (s : State) (f : LocMode → Out) : onLocation .memory s f = f .memory := rfl

/-- A guarded location operand: the silent no-op, or the instruction's own rule. -/
theorem onLocation_next {m : Mode} {s t : State} {f : LocMode → Out} (h : onLocation m s f = .next t) :
    (locMode m = none ∧ t = s.advance) ∨ (∃ l, locMode m = some l ∧ f l = .next t) := by
  unfold onLocation at h
  cases hl : locMode m with
  | none => rw [hl] at h; exact .inl ⟨rfl, silentNoOp_next h⟩
  | some l => rw [hl] at h; exact .inr ⟨l, rfl, h⟩

@[simp] theorem onRegister_register (k : Word) (s : State) (f : Reg → Out) :
    onRegister .register k s f = orFault (regOf k) f := rfl

theorem onRegister_other {m : Mode} (h : m ≠ .register) (k : Word) (s : State) (f : Reg → Out) :
    onRegister m k s f = .next s.advance := by
  cases m <;> first | rfl | exact absurd rfl h

/-- A guarded register operand: the silent no-op, or the instruction's own rule on the named register. -/
theorem onRegister_next {m : Mode} {k : Word} {s t : State} {f : Reg → Out} (h : onRegister m k s f = .next t) :
    (m ≠ .register ∧ t = s.advance) ∨ (m = .register ∧ ∃ r, regOf k = .ok r ∧ f r = .next t) := by
  by_cases hm : m = .register
  · subst hm
    exact .inr ⟨rfl, orFault_next h⟩
  · rw [onRegister_other hm] at h
    exact .inl ⟨hm, by cases h; rfl⟩

end Sys2Proof.Machine
end

