-- ==== Sys2Proof/Laws/Exec.lean ====
section
/-! SUPPORT. What one instruction and one step can do to each part of the state, said once. -/

namespace Sys2Proof.Machine

/-- Neither memory nor stack nor streams nor run state nor parameters touched. -/
def Quiet (s t : State) : Prop :=
  t.mem = s.mem ∧ t.stk = s.stk ∧ t.sp = s.sp ∧ t.run = s.run ∧ t.cin = s.cin ∧ t.cout = s.cout ∧ t.params = s.params

/-- Memory written at most at location `p`, nothing else of the streams, stack, run state or parameters touched. -/
def QuietBut (p : Loc) (v : Word) (s t : State) : Prop :=
  t.mem = (p.write v s).mem ∧ t.stk = s.stk ∧ t.sp = s.sp ∧ t.run = s.run ∧ t.cin = s.cin ∧ t.cout = s.cout ∧ t.params = s.params

/-- Every effect an instruction can have outside the registers, flags and `pc`. -/
inductive Effect (s t : State) : Prop where
  | quiet (h : Quiet s t)
  | wrote (p : Loc) (v : Word) (h : QuietBut p v s t)
  | pushed (v : Word) (room : s.hasRoom = true) (h : t.mem = s.mem ∧ t.stk = s.stk ++ [v] ∧ t.sp = s.sp - 2#16 ∧ t.run = s.run ∧ t.cin = s.cin ∧ t.cout = s.cout ∧ t.params = s.params)
  | popped (v : Word) (h : t.mem = s.mem ∧ s.stk = t.stk ++ [v] ∧ t.sp = s.sp + 2#16 ∧ t.run = s.run ∧ t.cin = s.cin ∧ t.cout = s.cout ∧ t.params = s.params)
  | halted (h : t = { s with run := .halted })
  | read (p : Loc) (c : Word) (h : t.mem = (p.write c s).mem ∧ t.stk = s.stk ∧ t.sp = s.sp ∧ t.run = s.run ∧ s.cin = c :: t.cin ∧ t.cout = s.cout ∧ t.params = s.params)
  | printed (v : Word) (h : t.mem = s.mem ∧ t.stk = s.stk ∧ t.sp = s.sp ∧ t.run = s.run ∧ t.cin = s.cin ∧ t.cout = s.cout ++ [v] ∧ t.params = s.params)

theorem Effect.advance (s : State) : Effect s s.advance := .quiet ⟨rfl, rfl, rfl, rfl, rfl, rfl, rfl⟩

theorem execLoad_effect {m : Mode} {k : Word} {s t : State} (h : execLoad m k s = .next t) : Effect s t := by
  obtain ⟨v, _, h⟩ := orFault_next h
  cases fallThrough_next h
  exact .quiet ⟨rfl, rfl, rfl, rfl, rfl, rfl, rfl⟩

theorem execStore_effect {m : Mode} {k : Word} {s t : State} (h : execStore m k s = .next t) : Effect s t := by
  obtain ⟨_, rfl⟩ | ⟨l, _, h⟩ := onLocation_next h
  · exact Effect.advance s
  · obtain ⟨u, hu, h⟩ := orFault_next h
    cases fallThrough_next h
    obtain ⟨p, _, rfl⟩ := locWrite_ok hu
    obtain ⟨_, hrun, hstk, hsp, hcin, hcout, _⟩ := p.write_frame (s.reg .A) s
    exact .wrote p _ ⟨rfl, hstk, hsp, hrun, hcin, hcout, by simp⟩

theorem accumulateArith_effect {raw : Int} {s t : State} (h : accumulateArith raw s = .next t) : Effect s t := by
  cases fallThrough_next h
  exact .quiet ⟨rfl, rfl, rfl, rfl, rfl, rfl, rfl⟩

theorem accumulateLogic_effect {r : Word} {s t : State} (h : accumulateLogic r s = .next t) : Effect s t := by
  cases fallThrough_next h
  exact .quiet ⟨rfl, rfl, rfl, rfl, rfl, rfl, rfl⟩

theorem modifyArith_effect {m : Mode} {k : Word} {f : Word → Int} {s t : State} (h : modifyArith m k f s = .next t) :
    Effect s t := by
  obtain ⟨_, rfl⟩ | ⟨l, _, h⟩ := onLocation_next h
  · exact Effect.advance s
  · obtain ⟨v, _, h⟩ := orFault_next h
    obtain ⟨u, hu, h⟩ := orFault_next h
    cases fallThrough_next h
    obtain ⟨p, _, rfl⟩ := locWrite_ok hu
    obtain ⟨_, hrun, hstk, hsp, hcin, hcout, _⟩ := p.write_frame (arith (f v)).stored s
    exact .wrote p _ ⟨rfl, hstk, hsp, hrun, hcin, hcout, by simp⟩

theorem execNot_effect {m : Mode} {k : Word} {s t : State} (h : execNot m k s = .next t) : Effect s t := by
  obtain ⟨_, rfl⟩ | ⟨l, _, h⟩ := onLocation_next h
  · exact Effect.advance s
  · obtain ⟨v, _, h⟩ := orFault_next h
    obtain ⟨u, hu, h⟩ := orFault_next h
    cases fallThrough_next h
    obtain ⟨p, _, rfl⟩ := locWrite_ok hu
    obtain ⟨_, hrun, hstk, hsp, hcin, hcout, _⟩ := p.write_frame (not16 v) s
    exact .wrote p _ ⟨rfl, hstk, hsp, hrun, hcin, hcout, by simp⟩

theorem execCmp_effect {m : Mode} {k : Word} {s t : State} (h : execCmp m k s = .next t) : Effect s t := by
  obtain ⟨v, _, h⟩ := orFault_next h
  cases fallThrough_next h
  exact .quiet ⟨rfl, rfl, rfl, rfl, rfl, rfl, rfl⟩

theorem execShl_effect {m : Mode} {k : Word} {s t : State} (h : execShl m k s = .next t) : Effect s t := by
  obtain ⟨_, rfl⟩ | ⟨_, r, _, h⟩ := onRegister_next h
  · exact Effect.advance s
  · cases fallThrough_next h
    exact .quiet ⟨by simp, by simp, by simp, by simp, by simp, by simp, by simp⟩

theorem execShr_effect {m : Mode} {k : Word} {s t : State} (h : execShr m k s = .next t) : Effect s t := by
  obtain ⟨_, rfl⟩ | ⟨_, r, _, h⟩ := onRegister_next h
  · exact Effect.advance s
  · cases fallThrough_next h
    exact .quiet ⟨by simp, by simp, by simp, by simp, by simp, by simp, by simp⟩

theorem execPush_effect {m : Mode} {k : Word} {s t : State} (h : execPush m k s = .next t) : Effect s t := by
  obtain ⟨_, rfl⟩ | ⟨_, r, _, h⟩ := onRegister_next h
  · exact Effect.advance s
  · obtain ⟨hr, rfl⟩ := pushOrStop_next h
    exact .pushed (s.reg r) hr ⟨rfl, rfl, rfl, rfl, rfl, rfl, rfl⟩

theorem execPop_effect {m : Mode} {k : Word} {s t : State} (h : execPop m k s = .next t) : Effect s t := by
  obtain ⟨_, rfl⟩ | ⟨_, r, _, h⟩ := onRegister_next h
  · exact Effect.advance s
  · obtain ⟨p, hp, h⟩ := orFault_next h
    cases fallThrough_next h
    obtain ⟨_, he⟩ | ⟨rest, v, hs, he⟩ := pop_cases s
    · rw [he] at hp; cases hp
    · rw [he] at hp
      cases hp
      exact .popped v ⟨by simp, by simp [hs], by simp, by simp, by simp, by simp, by simp⟩

theorem jumpIf_effect {c : Bool} {m : Mode} {k : Word} {s t : State} (h : jumpIf c m k s = .next t) : Effect s t := by
  obtain ⟨v, _, h⟩ := orFault_next h
  cases c <;> cases h <;> exact .quiet ⟨rfl, rfl, rfl, rfl, rfl, rfl, rfl⟩

theorem execJmp_effect {m : Mode} {k : Word} {s t : State} (h : execJmp m k s = .next t) : Effect s t := by
  obtain ⟨v, _, h⟩ := orFault_next h
  cases h
  exact .quiet ⟨rfl, rfl, rfl, rfl, rfl, rfl, rfl⟩

theorem execRead_effect {m : Mode} {k : Word} {s t : State} (h : execRead m k s = .next t) : Effect s t := by
  obtain ⟨_, rfl⟩ | ⟨l, _, h⟩ := onLocation_next h
  · exact Effect.advance s
  · obtain ⟨_, he⟩ | ⟨c, rest, hc, he⟩ := charIn_cases s
    · rw [he] at h
      cases awaitChar_next h
      exact .quiet ⟨rfl, rfl, rfl, rfl, rfl, rfl, rfl⟩
    · rw [he] at h
      obtain ⟨u, hu, h⟩ := orFault_next h
      cases fallThrough_next h
      obtain ⟨p, _, rfl⟩ := locWrite_ok hu
      obtain ⟨_, hrun, hstk, hsp, hcin, hcout, _⟩ := p.write_frame c { s with cin := rest }
      refine .read p c ⟨?_, hstk, hsp, hrun, by rw [hc]; simp [hcin], hcout, by simp⟩
      cases p with
      | reg r => simp [Loc.write]
      | cell a => rfl

theorem execPrint_effect {m : Mode} {k : Word} {s t : State} (h : execPrint m k s = .next t) : Effect s t := by
  obtain ⟨v, _, h⟩ := orFault_next h
  cases fallThrough_next h
  exact .printed v ⟨rfl, rfl, rfl, rfl, rfl, rfl, rfl⟩

/-- What any instruction can do outside the registers, flags and `pc`. -/
theorem exec_effect {i : Instr} {s t : State} (h : exec i s = .next t) : Effect s t := by
  cases i with
  | halt m k => cases h; exact .halted rfl
  | nop m k => cases fallThrough_next h; exact Effect.advance s
  | load m k => exact execLoad_effect h
  | store m k => exact execStore_effect h
  | add m k => obtain ⟨v, _, h⟩ := orFault_next h; exact accumulateArith_effect h
  | sub m k => obtain ⟨v, _, h⟩ := orFault_next h; exact accumulateArith_effect h
  | inc m k => exact modifyArith_effect h
  | dec m k => exact modifyArith_effect h
  | cmp m k => exact execCmp_effect h
  | xor m k => obtain ⟨v, _, h⟩ := orFault_next h; exact accumulateLogic_effect h
  | and m k => obtain ⟨v, _, h⟩ := orFault_next h; exact accumulateLogic_effect h
  | or m k => obtain ⟨v, _, h⟩ := orFault_next h; exact accumulateLogic_effect h
  | not m k => exact execNot_effect h
  | shl m k => exact execShl_effect h
  | shr m k => exact execShr_effect h
  | push m k => exact execPush_effect h
  | pop m k => exact execPop_effect h
  | jmp m k => exact execJmp_effect h
  | jz m k => exact jumpIf_effect h
  | jnz m k => exact jumpIf_effect h
  | jc m k => exact jumpIf_effect h
  | jnc m k => exact jumpIf_effect h
  | ja m k => exact jumpIf_effect h
  | jae m k => exact jumpIf_effect h
  | jb m k => exact jumpIf_effect h
  | jbe m k => exact jumpIf_effect h
  | read m k => exact execRead_effect h
  | print m k => exact execPrint_effect h

/-- A step that answers a next state ran the instruction decoded from the cell at `pc`, in state Running. -/
theorem step_next {s t : State} (h : step s = .next t) :
    s.run = .running ∧ ∃ w i, s.cell s.pc = some w ∧ decode w = .ok i ∧ exec i s = .next t := by
  unfold step at h
  cases hr : s.run with
  | running =>
    rw [hr] at h
    obtain ⟨w, hw, h⟩ := orFault_next h
    obtain ⟨w', hc, he⟩ | ⟨_, he⟩ := memFetch_eq s.pc s
    · rw [he] at hw
      cases hw
      cases hd : decode w with
      | ok i => rw [hd] at h; exact ⟨rfl, w, i, hc, hd, h⟩
      | error e => rw [hd] at h; cases h
    · rw [he] at hw; cases hw
  | halted => rw [hr] at h; cases h
  | faulted f => rw [hr] at h; cases h

end Sys2Proof.Machine
end

