-- ==== Sys2Proof/Laws/FaultEntry.lean ====
section
/-! SUPPORT. What entering the state Faulted does to each field (60_exceptions.md R240, R241). -/

namespace Sys2Proof.Machine

/-- Only READ's character goes before a raise (40_execution_cycle.md R129). -/
theorem beforeRaise_eq (i : Instr) (s : State) :
    beforeRaise i s = { s with cin := if takesCharacter i then s.cin.tail else s.cin } := by
  unfold beforeRaise charIn
  cases takesCharacter i with
  | false => rfl
  | true => cases h : s.cin <;> simp [h] <;> rw [← h]

theorem fetched_of_decode {s : State} {w : InstrWord} {i : Instr} (hc : s.cell s.pc = some w) (hd : decode w = .ok i) :
    s.fetched = some i := by
  simp [State.fetched, memFetch, hc, hd]

/-- Entering Faulted writes `run` and `cin` only. -/
theorem enterFaulted_eq (s : State) (f : Fault) :
    s.enterFaulted f = { s with
      run := .faulted f.name
      cin := if s.fetched.any takesCharacter then s.cin.tail else s.cin } := by
  unfold State.enterFaulted
  cases s.fetched with
  | none => rfl
  | some i => simp [beforeRaise_eq]

variable (s : State) (f : Fault)

@[simp] theorem enterFaulted_params : (s.enterFaulted f).params = s.params := by simp [enterFaulted_eq]
@[simp] theorem enterFaulted_regA : (s.enterFaulted f).regA = s.regA := by simp [enterFaulted_eq]
@[simp] theorem enterFaulted_regB : (s.enterFaulted f).regB = s.regB := by simp [enterFaulted_eq]
@[simp] theorem enterFaulted_regC : (s.enterFaulted f).regC = s.regC := by simp [enterFaulted_eq]
@[simp] theorem enterFaulted_regD : (s.enterFaulted f).regD = s.regD := by simp [enterFaulted_eq]
@[simp] theorem enterFaulted_regE : (s.enterFaulted f).regE = s.regE := by simp [enterFaulted_eq]
@[simp] theorem enterFaulted_zf : (s.enterFaulted f).zf = s.zf := by simp [enterFaulted_eq]
@[simp] theorem enterFaulted_cf : (s.enterFaulted f).cf = s.cf := by simp [enterFaulted_eq]
@[simp] theorem enterFaulted_sf : (s.enterFaulted f).sf = s.sf := by simp [enterFaulted_eq]
@[simp] theorem enterFaulted_pc : (s.enterFaulted f).pc = s.pc := by simp [enterFaulted_eq]
@[simp] theorem enterFaulted_run : (s.enterFaulted f).run = .faulted f.name := by simp [enterFaulted_eq]
@[simp] theorem enterFaulted_mem : (s.enterFaulted f).mem = s.mem := by simp [enterFaulted_eq]
@[simp] theorem enterFaulted_stk : (s.enterFaulted f).stk = s.stk := by simp [enterFaulted_eq]
@[simp] theorem enterFaulted_sp : (s.enterFaulted f).sp = s.sp := by simp [enterFaulted_eq]
@[simp] theorem enterFaulted_cout : (s.enterFaulted f).cout = s.cout := by simp [enterFaulted_eq]
@[simp] theorem enterFaulted_reg (q : Reg) : (s.enterFaulted f).reg q = s.reg q := by cases q <;> simp [State.reg]
@[simp] theorem enterFaulted_cell (x : Word) : (s.enterFaulted f).cell x = s.cell x := by simp [State.cell]
end Sys2Proof.Machine
end

