-- ==== Sys2Proof/Laws/Loader.lean ====
section
/-! SUPPORT. What the loader places (70_reset_and_hazards.md R271). -/

namespace Sys2Proof.Machine

theorem placeWords_mem {base : Nat} {ws : List InstrWord} {c : Nat × InstrWord} (h : c ∈ placeWords base ws) :
    base ≤ c.1 ∧ c.1 < base + 3 * ws.length := by
  induction ws generalizing base with
  | nil => cases h
  | cons w ws ih =>
    simp only [placeWords, List.mem_cons] at h
    simp only [List.length_cons]
    rcases h with rfl | h
    · simp only [le_refl, true_and]; omega
    · have := ih h; omega

/-- The last cell of an image stands two below the next slot. -/
theorem placeWords_mem_last {base : Nat} {ws : List InstrWord} {c : Nat × InstrWord} (h : c ∈ placeWords base ws) :
    c.1 + 3 ≤ base + 3 * ws.length := by
  induction ws generalizing base with
  | nil => cases h
  | cons w ws ih =>
    simp only [placeWords, List.mem_cons] at h
    simp only [List.length_cons]
    rcases h with rfl | h
    · show base + 3 ≤ _
      omega
    · have := ih h; omega

/-- A loaded memory has the canonical form. -/
theorem loadWords_wf {ws : List InstrWord} {m : Memory} (h : loadWords ws = .ok m) : m.wf := by
  unfold loadWords at h
  split at h
  · rename_i hl
    cases h
    refine ⟨?_, fun c hc => ?_⟩
    · generalize imageBase = b
      clear hl
      induction ws generalizing b with
      | nil => simp [placeWords]
      | cons w ws ih =>
        refine List.pairwise_cons.mpr ⟨fun c hc => ?_, ih _⟩
        have := placeWords_mem hc
        show b < c.1
        omega
    · have := placeWords_mem_last hc
      simp only [imageBase, maxImageWords] at this hl
      omega
  · cases h

end Sys2Proof.Machine
end

