-- ==== Sys2Proof/Laws/PerInstr.lean ====
section
/-! SUPPORT. One statement of every instruction as syntax: the fields of its word are its opcode, its mode and its operand
(30_encoding.md R81), and its opcode is one of 1 to 28 (R89). -/

namespace Sys2Proof.Laws.EncodedFields

/-- The fields of the encoded word, and the opcode's range. -/
def Statement (i : Instr) : Prop :=
  opcodeField (encode i) = i.opcode ∧ modeField (encode i) = i.mode.toBits ∧ operandField (encode i) = i.operand ∧
  1 ≤ i.opcode.toNat ∧ i.opcode.toNat ≤ 28

theorem halt (m : Mode) (k : Word) : Statement (.halt m k) := by
  refine ⟨?_, ?_, ?_, ?_, ?_⟩ <;> simp [encode, Instr.opcode]

theorem load (m : Mode) (k : Word) : Statement (.load m k) := by
  refine ⟨?_, ?_, ?_, ?_, ?_⟩ <;> simp [encode, Instr.opcode]

theorem store (m : Mode) (k : Word) : Statement (.store m k) := by
  refine ⟨?_, ?_, ?_, ?_, ?_⟩ <;> simp [encode, Instr.opcode]

theorem add (m : Mode) (k : Word) : Statement (.add m k) := by
  refine ⟨?_, ?_, ?_, ?_, ?_⟩ <;> simp [encode, Instr.opcode]

theorem sub (m : Mode) (k : Word) : Statement (.sub m k) := by
  refine ⟨?_, ?_, ?_, ?_, ?_⟩ <;> simp [encode, Instr.opcode]

theorem inc (m : Mode) (k : Word) : Statement (.inc m k) := by
  refine ⟨?_, ?_, ?_, ?_, ?_⟩ <;> simp [encode, Instr.opcode]

theorem dec (m : Mode) (k : Word) : Statement (.dec m k) := by
  refine ⟨?_, ?_, ?_, ?_, ?_⟩ <;> simp [encode, Instr.opcode]

theorem xor (m : Mode) (k : Word) : Statement (.xor m k) := by
  refine ⟨?_, ?_, ?_, ?_, ?_⟩ <;> simp [encode, Instr.opcode]

theorem and (m : Mode) (k : Word) : Statement (.and m k) := by
  refine ⟨?_, ?_, ?_, ?_, ?_⟩ <;> simp [encode, Instr.opcode]

theorem or (m : Mode) (k : Word) : Statement (.or m k) := by
  refine ⟨?_, ?_, ?_, ?_, ?_⟩ <;> simp [encode, Instr.opcode]

theorem not (m : Mode) (k : Word) : Statement (.not m k) := by
  refine ⟨?_, ?_, ?_, ?_, ?_⟩ <;> simp [encode, Instr.opcode]

theorem shl (m : Mode) (k : Word) : Statement (.shl m k) := by
  refine ⟨?_, ?_, ?_, ?_, ?_⟩ <;> simp [encode, Instr.opcode]

theorem shr (m : Mode) (k : Word) : Statement (.shr m k) := by
  refine ⟨?_, ?_, ?_, ?_, ?_⟩ <;> simp [encode, Instr.opcode]

theorem nop (m : Mode) (k : Word) : Statement (.nop m k) := by
  refine ⟨?_, ?_, ?_, ?_, ?_⟩ <;> simp [encode, Instr.opcode]

theorem push (m : Mode) (k : Word) : Statement (.push m k) := by
  refine ⟨?_, ?_, ?_, ?_, ?_⟩ <;> simp [encode, Instr.opcode]

theorem pop (m : Mode) (k : Word) : Statement (.pop m k) := by
  refine ⟨?_, ?_, ?_, ?_, ?_⟩ <;> simp [encode, Instr.opcode]

theorem cmp (m : Mode) (k : Word) : Statement (.cmp m k) := by
  refine ⟨?_, ?_, ?_, ?_, ?_⟩ <;> simp [encode, Instr.opcode]

theorem jmp (m : Mode) (k : Word) : Statement (.jmp m k) := by
  refine ⟨?_, ?_, ?_, ?_, ?_⟩ <;> simp [encode, Instr.opcode]

theorem jz (m : Mode) (k : Word) : Statement (.jz m k) := by
  refine ⟨?_, ?_, ?_, ?_, ?_⟩ <;> simp [encode, Instr.opcode]

theorem jnz (m : Mode) (k : Word) : Statement (.jnz m k) := by
  refine ⟨?_, ?_, ?_, ?_, ?_⟩ <;> simp [encode, Instr.opcode]

theorem jc (m : Mode) (k : Word) : Statement (.jc m k) := by
  refine ⟨?_, ?_, ?_, ?_, ?_⟩ <;> simp [encode, Instr.opcode]

theorem jnc (m : Mode) (k : Word) : Statement (.jnc m k) := by
  refine ⟨?_, ?_, ?_, ?_, ?_⟩ <;> simp [encode, Instr.opcode]

theorem ja (m : Mode) (k : Word) : Statement (.ja m k) := by
  refine ⟨?_, ?_, ?_, ?_, ?_⟩ <;> simp [encode, Instr.opcode]

theorem jae (m : Mode) (k : Word) : Statement (.jae m k) := by
  refine ⟨?_, ?_, ?_, ?_, ?_⟩ <;> simp [encode, Instr.opcode]

theorem jb (m : Mode) (k : Word) : Statement (.jb m k) := by
  refine ⟨?_, ?_, ?_, ?_, ?_⟩ <;> simp [encode, Instr.opcode]

theorem jbe (m : Mode) (k : Word) : Statement (.jbe m k) := by
  refine ⟨?_, ?_, ?_, ?_, ?_⟩ <;> simp [encode, Instr.opcode]

theorem read (m : Mode) (k : Word) : Statement (.read m k) := by
  refine ⟨?_, ?_, ?_, ?_, ?_⟩ <;> simp [encode, Instr.opcode]

theorem print (m : Mode) (k : Word) : Statement (.print m k) := by
  refine ⟨?_, ?_, ?_, ?_, ?_⟩ <;> simp [encode, Instr.opcode]

end Sys2Proof.Laws.EncodedFields
end

