-- ==== Sys2Proof/Tests/Slice0.lean ====
section
/-! SUPPORT. Tests: ill-formed terms refused, one word per constructor decoded, one-step tests from 95_test_vectors.md, the loader
and the assembler, and a witness for the hypotheses of each obligation. The T, P, S and F numbers are those of
95_test_vectors.md. -/

namespace Sys2Proof.Machine.Slice0

/-! ### Helpers -/

/-- A machine at pc 0x0030 with the word `w` there, two data cells, two stacked values and two characters to come. -/
def st (a b : Word) (z c n : Bool) (w : InstrWord) : State :=
  { State.reset with
    regA := a, regB := b, regC := 0x0033#16, zf := z, cf := c, sf := n, pc := 0x0030#16,
    mem := [(0x0030, w), (0x0200, 0x0000AA#24), (0x0300, 0x00BEEF#24)],
    stk := [0x0069#16, 0x0101#16], sp := 0xFFFB#16, cin := [0x006F#16, 0x006B#16] }

/-- The step answers a next state that satisfies `p`. -/
def goesTo (s : State) (p : State → Bool) : Bool :=
  match step s with
  | .next t => p t
  | _ => false

/-- The step faults with `f`. -/
def faultsWith (s : State) (f : Fault) : Bool :=
  match step s with
  | .fault g => g == f
  | _ => false

/-- The three flags in the order ZF, CF, SF. -/
def flagsOf (t : State) : Bool × Bool × Bool := (t.zf, t.cf, t.sf)

/-- The state with its program counter at `p`. -/
def atPc (s : State) (p : Word) : State := { s with pc := p }

/-- The state after the step of `s`; `s` itself where there is none. -/
def after (s : State) : State :=
  match step s with
  | .next t => t
  | _ => s

/-! ### WellFormed: one ill-formed term for each check -/

theorem test_wf_store_immediate_refused :
    (Instr.store .immediate 5#16).wellFormed = false := by decide

theorem test_wf_shl_immediate_refused :
    (Instr.shl .immediate 1#16).wellFormed = false := by decide

theorem test_wf_pop_memory_refused :
    (Instr.pop .memory 1#16).wellFormed = false := by decide

theorem test_wf_register_zero_refused :
    (Instr.load .register 0#16).wellFormed = false := by decide

theorem test_wf_register_six_refused :
    (Instr.add .registerIndirect 6#16).wellFormed = false := by decide

theorem test_wf_register_five_accepted :
    (Instr.add .registerIndirect 5#16).wellFormed = true := by decide

theorem test_wf_address_zero_accepted :
    (Instr.load .memory 0#16).wellFormed = true := by decide

/-! ### Decode: words written out from 30_encoding.md R81, R86, R89 (opcode times 4 plus mode, then the operand) -/

theorem test_decode_halt :
    decode 0x040000#24 = .ok (.halt .immediate 0#16) := rfl

theorem test_decode_load :
    decode 0x080041#24 = .ok (.load .immediate 0x0041#16) := rfl

theorem test_decode_store :
    decode 0x0D0003#24 = .ok (.store .register 3#16) := rfl

theorem test_decode_add :
    decode 0x120002#24 = .ok (.add .registerIndirect 2#16) := rfl

theorem test_decode_sub :
    decode 0x170300#24 = .ok (.sub .memory 0x0300#16) := rfl

theorem test_decode_inc :
    decode 0x190002#24 = .ok (.inc .register 2#16) := rfl

theorem test_decode_dec :
    decode 0x1D0002#24 = .ok (.dec .register 2#16) := rfl

theorem test_decode_xor :
    decode 0x20002E#24 = .ok (.xor .immediate 0x002E#16) := rfl

theorem test_decode_and :
    decode 0x250004#24 = .ok (.and .register 4#16) := rfl

theorem test_decode_or :
    decode 0x28FF00#24 = .ok (.or .immediate 0xFF00#16) := rfl

theorem test_decode_not :
    decode 0x2E0002#24 = .ok (.not .registerIndirect 2#16) := rfl

theorem test_decode_shl :
    decode 0x310002#24 = .ok (.shl .register 2#16) := rfl

theorem test_decode_shr :
    decode 0x350002#24 = .ok (.shr .register 2#16) := rfl

theorem test_decode_nop :
    decode 0x3BFFFF#24 = .ok (.nop .memory 0xFFFF#16) := rfl

theorem test_decode_push :
    decode 0x3D0001#24 = .ok (.push .register 1#16) := rfl

theorem test_decode_pop :
    decode 0x410003#24 = .ok (.pop .register 3#16) := rfl

theorem test_decode_cmp :
    decode 0x460005#24 = .ok (.cmp .registerIndirect 5#16) := rfl

theorem test_decode_jmp :
    decode 0x4B0300#24 = .ok (.jmp .memory 0x0300#16) := rfl

theorem test_decode_jz :
    decode 0x4C0012#24 = .ok (.jz .immediate 0x0012#16) := rfl

theorem test_decode_jnz :
    decode 0x500009#24 = .ok (.jnz .immediate 9#16) := rfl

theorem test_decode_jc :
    decode 0x550001#24 = .ok (.jc .register 1#16) := rfl

theorem test_decode_jnc :
    decode 0x5A0002#24 = .ok (.jnc .registerIndirect 2#16) := rfl

theorem test_decode_ja :
    decode 0x5F8000#24 = .ok (.ja .memory 0x8000#16) := rfl

theorem test_decode_jae :
    decode 0x600009#24 = .ok (.jae .immediate 9#16) := rfl

theorem test_decode_jb :
    decode 0x640009#24 = .ok (.jb .immediate 9#16) := rfl

theorem test_decode_jbe :
    decode 0x6B1234#24 = .ok (.jbe .memory 0x1234#16) := rfl

theorem test_decode_read :
    decode 0x6E0002#24 = .ok (.read .registerIndirect 2#16) := rfl

theorem test_decode_print :
    decode 0x73FFFF#24 = .ok (.print .memory 0xFFFF#16) := rfl

theorem test_decode_opcode_0 :
    decode 0x00FFFF#24 = .error (.illegalOpcode 0#6) := rfl

theorem test_decode_opcode_29 :
    decode 0x740000#24 = .error (.illegalOpcode 29#6) := rfl

theorem test_decode_opcode_63 :
    decode 0xFFFFFF#24 = .error (.illegalOpcode 63#6) := rfl

theorem test_table_word :
    decodeTableWord 24 0x710001 = some (.print .register 1#16) := rfl

theorem test_fetch_word :
    step (State.reset.withFetchWord 24 0x08ABCD) = exec (.load .immediate 0xABCD#16) (State.reset.withFetchWord 24 0x08ABCD) := rfl

/-! ### One step each (T2 to T7) -/

theorem test_load_indirect :
    goesTo (st 0x1111#16 0x0200#16 true true true 0x0A0002#24) (fun t => t.regA == 0x00AA#16 && flagsOf t == (true, true, true) && t.pc == 0x0033#16) = true := by decide

theorem test_load_wide_faults :
    faultsWith (st 0x1111#16 0x0200#16 true true true 0x0B0030#24) (.wideDataRead 0x0030#16) = true := by decide

theorem test_store_indirect :
    goesTo (st 0x1111#16 0x0200#16 true true true 0x0E0002#24) (fun t => t.cell 0x0200#16 == some 0x001111#24 && t.regB == 0x0200#16 && t.pc == 0x0033#16) = true := by decide

theorem test_store_creates_cell :
    goesTo (st 0x1111#16 0x0200#16 true true true 0x0F0400#24) (fun t => t.cell 0x0400#16 == some 0x001111#24 && t.cell 0x0300#16 == some 0x00BEEF#24) = true := by decide

theorem test_add_wraps :
    goesTo (st 0xFFFF#16 0#16 false false false 0x100001#24) (fun t => t.regA == 1#16 && flagsOf t == (false, true, false) && t.pc == 0x0033#16) = true := by decide

theorem test_add_largest_sum :
    goesTo (st 0xFFFF#16 0#16 false false false 0x10FFFF#24) (fun t => t.regA == 0xFFFF#16 && flagsOf t == (false, true, true)) = true := by decide

theorem test_sub_borrows :
    goesTo (st 3#16 0#16 false true false 0x140005#24) (fun t => t.regA == 0xFFFE#16 && flagsOf t == (false, false, true)) = true := by decide

theorem test_sub_zero_from_top :
    goesTo (st 0xFFFF#16 0#16 false false false 0x140000#24) (fun t => t.regA == 0#16 && flagsOf t == (false, true, false)) = true := by decide

theorem test_cmp_equal :
    goesTo (st 5#16 0#16 true false true 0x440005#24) (fun t => t.regA == 5#16 && flagsOf t == (false, true, false)) = true := by decide

theorem test_cmp_sign :
    goesTo (st 0x8000#16 0#16 false false false 0x440001#24) (fun t => t.regA == 0x8000#16 && flagsOf t == (false, true, true)) = true := by decide

theorem test_inc_wraps :
    goesTo (st 7#16 0xFFFF#16 false false false 0x190002#24) (fun t => t.regB == 1#16 && t.regA == 7#16 && flagsOf t == (false, true, false)) = true := by decide

theorem test_inc_memory :
    goesTo (st 7#16 0x0200#16 true true true 0x1A0002#24) (fun t => t.cell 0x0200#16 == some 0x0000AB#24 && t.regB == 0x0200#16 && flagsOf t == (false, false, false)) = true := by decide

theorem test_dec_zero :
    goesTo (st 7#16 0#16 false true false 0x1D0002#24) (fun t => t.regB == 0xFFFF#16 && flagsOf t == (false, false, true)) = true := by decide

theorem test_dec_to_zero :
    goesTo (st 7#16 1#16 false true false 0x1D0002#24) (fun t => t.regB == 0#16 && flagsOf t == (true, false, false)) = true := by decide

theorem test_xor_keeps_cf :
    goesTo (st 0x00FF#16 0#16 false true true 0x200F0F#24) (fun t => t.regA == 0x0FF0#16 && flagsOf t == (false, true, false)) = true := by decide

theorem test_and_zero :
    goesTo (st 0xAAAA#16 0#16 false true true 0x245555#24) (fun t => t.regA == 0#16 && flagsOf t == (true, true, false)) = true := by decide

theorem test_or_sign :
    goesTo (st 0x8000#16 0#16 true false false 0x280001#24) (fun t => t.regA == 0x8001#16 && flagsOf t == (false, false, true)) = true := by decide

theorem test_not_register :
    goesTo (st 7#16 0x00FF#16 true true false 0x2D0002#24) (fun t => t.regB == 0xFF00#16 && flagsOf t == (false, true, true)) = true := by decide

theorem test_not_memory :
    goesTo (st 7#16 0x0200#16 false false false 0x2E0002#24) (fun t => t.cell 0x0200#16 == some 0x00FF55#24 && flagsOf t == (false, false, true)) = true := by decide

theorem test_shl_rotates :
    goesTo (st 7#16 0xC000#16 false false false 0x310002#24) (fun t => t.regB == 0x8001#16 && flagsOf t == (false, true, true)) = true := by decide

theorem test_shl_zero :
    goesTo (st 7#16 0#16 false true true 0x310002#24) (fun t => t.regB == 0#16 && flagsOf t == (true, false, false)) = true := by decide

theorem test_shr_logical :
    goesTo (st 7#16 0x8000#16 true true true 0x350002#24) (fun t => t.regB == 0x4000#16 && flagsOf t == (false, true, false)) = true := by decide

theorem test_shr_loses_bit :
    goesTo (st 7#16 1#16 false false false 0x350002#24) (fun t => t.regB == 0#16 && flagsOf t == (true, false, false)) = true := by decide

theorem test_nop_other_fields :
    goesTo (st 7#16 1#16 true false true 0x3BFFFF#24) (fun t => t == atPc (st 7#16 1#16 true false true 0x3BFFFF#24) 0x0033#16) = true := by decide

theorem test_push :
    goesTo (st 7#16 0x1234#16 true false true 0x3D0002#24) (fun t => t.stk == [0x0069#16, 0x0101#16, 0x1234#16] && t.sp == 0xFFF9#16 && flagsOf t == (true, false, true)) = true := by decide

theorem test_push_memory_mode_no_op :
    goesTo (st 7#16 1#16 true false true 0x3F0001#24) (fun t => t == atPc (st 7#16 1#16 true false true 0x3F0001#24) 0x0033#16) = true := by decide

theorem test_pop :
    goesTo (st 7#16 1#16 true false true 0x410001#24) (fun t => t.regA == 0x0101#16 && t.stk == [0x0069#16] && t.sp == 0xFFFD#16 && flagsOf t == (true, false, true)) = true := by decide

theorem test_pop_register_check_first :
    exec (.pop .register 6#16) State.reset = .fault (.invalidRegister 6#16) := rfl

theorem test_jmp_memory :
    goesTo (st 7#16 1#16 false false false 0x4B0200#24) (fun t => t.pc == 0x00AA#16) = true := by decide

theorem test_jz_taken :
    goesTo (st 7#16 1#16 true false false 0x4C0100#24) (fun t => t.pc == 0x0100#16) = true := by decide

theorem test_jz_not_taken :
    goesTo (st 7#16 1#16 false true true 0x4C0100#24) (fun t => t.pc == 0x0033#16) = true := by decide

theorem test_jnz_taken :
    goesTo (st 7#16 1#16 false true true 0x500100#24) (fun t => t.pc == 0x0100#16) = true := by decide

theorem test_jnz_not_taken :
    goesTo (st 7#16 1#16 true false false 0x500100#24) (fun t => t.pc == 0x0033#16) = true := by decide

theorem test_jc_taken :
    goesTo (st 7#16 1#16 false true false 0x540100#24) (fun t => t.pc == 0x0100#16) = true := by decide

theorem test_jc_not_taken :
    goesTo (st 7#16 1#16 true false true 0x540100#24) (fun t => t.pc == 0x0033#16) = true := by decide

theorem test_jnc_taken :
    goesTo (st 7#16 1#16 true false true 0x580100#24) (fun t => t.pc == 0x0100#16) = true := by decide

theorem test_jnc_not_taken :
    goesTo (st 7#16 1#16 false true false 0x580100#24) (fun t => t.pc == 0x0033#16) = true := by decide

theorem test_ja_taken :
    goesTo (st 7#16 1#16 false false true 0x5C0100#24) (fun t => t.pc == 0x0100#16) = true := by decide

theorem test_ja_not_taken :
    goesTo (st 7#16 1#16 true true false 0x5C0100#24) (fun t => t.pc == 0x0033#16) = true := by decide

theorem test_jae_taken :
    goesTo (st 7#16 1#16 true false true 0x600100#24) (fun t => t.pc == 0x0100#16) = true := by decide

theorem test_jae_not_taken :
    goesTo (st 7#16 1#16 false true false 0x600100#24) (fun t => t.pc == 0x0033#16) = true := by decide

theorem test_jb_taken :
    goesTo (st 7#16 1#16 false true false 0x640100#24) (fun t => t.pc == 0x0100#16) = true := by decide

theorem test_jb_not_taken :
    goesTo (st 7#16 1#16 true false true 0x640100#24) (fun t => t.pc == 0x0033#16) = true := by decide

theorem test_jbe_taken :
    goesTo (st 7#16 1#16 true false false 0x680100#24) (fun t => t.pc == 0x0100#16) = true := by decide

theorem test_jbe_not_taken :
    goesTo (st 7#16 1#16 false false true 0x680100#24) (fun t => t.pc == 0x0033#16) = true := by decide

theorem test_not_taken_jump_still_reads_target :
    faultsWith (st 7#16 1#16 false false false 0x4F0600#24) (.uninitializedMemoryAccess 0x0600#16) = true := by decide

theorem test_read_register :
    goesTo (st 7#16 0#16 true false true 0x6D0002#24) (fun t => t.regB == 0x006F#16 && t.cin == [0x006B#16] && flagsOf t == (true, false, true)) = true := by decide

theorem test_read_immediate_no_op :
    goesTo (st 7#16 0#16 true false true 0x6C0001#24) (fun t => t == atPc (st 7#16 0#16 true false true 0x6C0001#24) 0x0033#16) = true := by decide

theorem test_print_register :
    goesTo (st 0xFFFF#16 0#16 false false false 0x710001#24) (fun t => t.cout == [0xFFFF#16] && t.cin == [0x006F#16, 0x006B#16]) = true := by decide

theorem test_print_immediate :
    goesTo (st 7#16 0#16 false false false 0x700048#24) (fun t => t.cout == [0x0048#16]) = true := by decide

theorem test_halt_other_fields :
    goesTo (st 7#16 0#16 true false true 0x070123#24) (fun t => t.run == .halted && t.regA == 7#16 && flagsOf t == (true, false, true)) = true := by decide

theorem test_illegal_opcode_faults :
    faultsWith (st 7#16 0#16 false false false 0x740000#24) (.illegalOpcode 0x0030#16 0x740000#24) = true := by decide

theorem test_stored_cell_is_illegal :
    runFor 3 (after (after { State.reset with mem := [(0, 0x08FFFF#24), (3, 0x0F0006#24), (6, 0x380000#24)] })) =
      .faulted .illegalOpcode [] := by decide

/-! ### The loader and the assembler -/

theorem test_program_P1_runs :
    (match boot Config.defaultParams ["080041".toList, "710001".toList, "040000".toList] [] with
    | .ok s => match runFor 3 s with
      | .halted t => t.cout == [0x0041#16] && t.regA == 0x0041#16
      | _ => false
    | .error _ => false) = true := by decide

theorem test_image_lowercase_refused :
    imageLine "08004a".toList = .error (.malformedLine "08004a".toList) := rfl

theorem test_image_five_digits_refused :
    imageLine "08004".toList = .error (.malformedLine "08004".toList) := rfl

theorem test_render_word :
    renderWord 0x08ABCD#24 = "08ABCD".toList := by decide

theorem test_assemble_P1 :
    assemble ["LOAD 'A'".toList, "PRINT A".toList, "HALT".toList] = .ok ["080041".toList, "710001".toList, "040000".toList] := rfl

theorem test_assemble_digits_are_hex :
    assemble ["LOAD 10".toList, "LOAD [100]".toList] = .ok ["080010".toList, "0B0100".toList] := rfl

theorem test_assemble_halt_quirk :
    assemble ["HALT".toList, "x:".toList, "NOP".toList, "JMP x".toList] =
      .ok ["040000".toList, "380000".toList, "480000".toList] := rfl

theorem test_assemble_range :
    assemble ["LOAD 70000".toList] = .error .encodingRange := rfl

theorem test_assemble_unknown_mnemonic :
    assemble ["MOV A".toList] = .error (.unknownMnemonic "MOV".toList) := rfl

theorem test_assemble_colon_token_is_no_label :
    assemble ["1x:".toList] = .error (.unknownMnemonic "1x:".toList) ∧
      assemble ["ADD:".toList] = .error (.unknownMnemonic "ADD:".toList) := ⟨rfl, rfl⟩

theorem test_duplicate_label_named :
    assemble ["x:".toList, "y:".toList, "x:".toList, "y:".toList] = .error (.duplicateLabel ['y']) := rfl

theorem test_assemble_undefined_label :
    assemble ["JMP x".toList] = .error (.undefinedLabel ['x']) := rfl

/-! ### Witnesses: a state and operands that meet the hypotheses of each obligation, one for each clause -/

theorem witness_EncodeOfDecodeIsIdentity :
    decode 0x1D0002#24 = .ok (.dec .register 2#16) := rfl

theorem witness_CodecTriplesBijection :
    (63 ≤ 63 ∧ 3 ≤ 3 ∧ 65535 ≤ 65535) ∧ encodeTriple 63 3 65535 = .ok 0xFFFFFF#24 := ⟨by decide, rfl⟩

theorem witness_EncodeTripleValueOrRangeError :
    encodeTriple 63 3 65535 = .ok 0xFFFFFF#24 ∧ encodeTriple 64 3 65535 = .error .encodingRange ∧
      encodeTriple 63 4 65535 = .error .encodingRange ∧ encodeTriple 63 3 65536 = .error .encodingRange := ⟨rfl, rfl, rfl, rfl⟩

theorem witness_DecodeRefusesExactlyIllegalOpcodes :
    (0x03FFFF#24).toNat / 262144 = 0 ∧ 29 ≤ (0x740000#24).toNat / 262144 ∧
      ¬ ((0x73FFFF#24).toNat / 262144 = 0 ∨ 29 ≤ (0x73FFFF#24).toNat / 262144) ∧
      ¬ ((0x040000#24).toNat / 262144 = 0 ∨ 29 ≤ (0x040000#24).toNat / 262144) := by decide

theorem witness_ResetWithImageLeavesSpecState :
    (List.replicate 21846 0x380000#24).length ≤ 21846 ∧ 21845 < (List.replicate 21846 0x380000#24).length ∧
      21846 < (List.replicate 21847 0x380000#24).length := by simp only [List.length_replicate]; decide

theorem witness_LoaderAcceptsExactlyImageLines :
    "08ABCD".toList = renderWord 0x08ABCD#24 ∧ ∀ w, "08004".toList ≠ renderWord w := ⟨by decide, fun w h => absurd (congrArg List.length h) (by decide : ¬ (5 = 6))⟩

theorem witness_BootedRunStartsAtFirstWord :
    boot Config.defaultParams ["080041".toList, "040000".toList] [] = .ok (resetState Config.defaultParams [(0, 0x080041#24), (3, 0x040000#24)] []) ∧
      imageLine "080041".toList = .ok 0x080041#24 ∧ decode 0x080041#24 = .ok (.load .immediate 0x0041#16) ∧
      boot Config.defaultParams ["740000".toList] [] = .ok (resetState Config.defaultParams [(0, 0x740000#24)] []) ∧
      imageLine "740000".toList = .ok 0x740000#24 ∧ decode 0x740000#24 = .error (.illegalOpcode 29#6) ∧
      (List.replicate 21846 0x380000#24).length ≤ 21846 ∧ 21846 < (List.replicate 21847 0x380000#24).length ∧
      ∀ w, "08004".toList ≠ renderWord w := ⟨rfl, rfl, rfl, rfl, rfl, rfl, by simp only [List.length_replicate]; decide, by simp only [List.length_replicate]; decide,
      fun w h => absurd (congrArg List.length h) (by decide : ¬ (5 = 6))⟩

theorem witness_OperandValueByMode :
    ((0#16).toNat = 0 ∨ 5 < (0#16).toNat) ∧ ((6#16).toNat = 0 ∨ 5 < (6#16).toNat) ∧ ((0xFFFF#16).toNat = 0 ∨ 5 < (0xFFFF#16).toNat) ∧
      regOf 5#16 = .ok .E ∧ regOf 1#16 = .ok .A ∧ regOf 0#16 = .error (.invalidRegister 0#16) ∧
      memRead 0x0600#16 (st 7#16 0x0200#16 false false false 0x380000#24) = .error (.uninitializedMemoryAccess 0x0600#16) := ⟨by decide, by decide, by decide, rfl, rfl, rfl, rfl⟩

/-- A machine whose cell 9 is as given. -/
def atCell (c : Option InstrWord) : State :=
  { State.reset with mem := match c with
      | none => []
      | some w => [(9, w)] }

theorem witness_DataReadOfCell :
    (atCell none).cell 9#16 = none ∧ (atCell (some 0x010000#24)).cell 9#16 = some 0x010000#24 ∧ 65535 < (0x010000#24).toNat ∧
      (atCell (some 0x00FFFF#24)).cell 9#16 = some 0x00FFFF#24 ∧ (0x00FFFF#24).toNat ≤ 65535 := by decide

theorem witness_LoadPutsOperandInA :
    val .memory 0x0300#16 (st 7#16 0x0200#16 false false false 0#24) = .ok 0xBEEF#16 ∧ val .registerIndirect 2#16 (st 7#16 0x0200#16 false false false 0#24) = .ok 0x00AA#16 ∧
      val .register 2#16 (st 7#16 0x0200#16 false false false 0#24) = .ok 0x0200#16 ∧ val .immediate 2#16 (st 7#16 0x0200#16 false false false 0#24) = .ok 2#16 := ⟨rfl, rfl, rfl, rfl⟩

theorem witness_StoreWritesAToLocation :
    (locMode .register = some .register ∧ locOf .register 1#16 (st 7#16 0x0200#16 false false false 0#24) = .ok (.reg .A)) ∧
      (locMode .registerIndirect = some .registerIndirect ∧ locOf .registerIndirect 2#16 (st 7#16 0x0200#16 false false false 0#24) = .ok (.cell 0x0200#16)) ∧
      (locMode .memory = some .memory ∧ locOf .memory 0x0400#16 (st 7#16 0x0200#16 false false false 0#24) = .ok (.cell 0x0400#16)) := ⟨⟨rfl, rfl⟩, ⟨rfl, rfl⟩, ⟨rfl, rfl⟩⟩

theorem witness_StoreThenLoadReturnsValue :
    exec (.store .memory 0x0400#16) (st 7#16 0x0200#16 false false false 0x0F0400#24) = .next (after (st 7#16 0x0200#16 false false false 0x0F0400#24)) ∧
      (after (st 7#16 0x0200#16 false false false 0x0F0400#24)).cell 0x0400#16 = some 7#24 ∧
      (0x0300#16 : Word) ≠ 0x0400#16 ∧ val .memory 0x0300#16 (st 7#16 0x0200#16 false false false 0x0F0400#24) = .ok 0xBEEF#16 := ⟨rfl, rfl, by decide, rfl⟩

theorem witness_AddResultAndFlags :
    val .immediate 1#16 (st 0xFFFE#16 0#16 false false false 0x380000#24) = .ok 1#16 ∧ ((0xFFFE#16).toNat + (1#16).toNat ≤ 65535) ∧
      val .immediate 1#16 (st 0xFFFF#16 0#16 false false false 0x380000#24) = .ok 1#16 ∧ (65535 < (0xFFFF#16).toNat + (1#16).toNat) := ⟨rfl, by decide, rfl, by decide⟩

theorem witness_SubResultAndFlags :
    val .immediate 5#16 (st 4#16 0#16 false false false 0x380000#24) = .ok 5#16 ∧ ((4#16).toNat < (5#16).toNat) ∧
      val .immediate 5#16 (st 5#16 0#16 false false false 0x380000#24) = .ok 5#16 ∧ ((5#16).toNat ≤ (5#16).toNat ∧ ¬ ((5#16).toNat = 65535 ∧ (5#16).toNat = 0)) ∧
      val .immediate 0#16 (st 0xFFFF#16 0#16 false false false 0x380000#24) = .ok 0#16 ∧ ((0xFFFF#16).toNat = 65535 ∧ (0#16).toNat = 0) := ⟨rfl, by decide, rfl, by decide, rfl, by decide⟩

theorem witness_CmpWritesSubFlagsOnly :
    val .immediate 0xFFFF#16 (st 0#16 0#16 false false false 0x380000#24) = .ok 0xFFFF#16 ∧ ((0#16).toNat < (0xFFFF#16).toNat) ∧
      val .immediate 1#16 (st 0xFFFF#16 0#16 false false false 0x380000#24) = .ok 1#16 ∧ ((1#16).toNat ≤ (0xFFFF#16).toNat ∧ ¬ ((0xFFFF#16).toNat = 65535 ∧ (1#16).toNat = 0)) ∧
      val .immediate 0#16 (st 0xFFFF#16 0#16 false false false 0x380000#24) = .ok 0#16 ∧ ((0xFFFF#16).toNat = 65535 ∧ (0#16).toNat = 0) := ⟨rfl, by decide, rfl, by decide, rfl, by decide⟩

theorem witness_IncResultAndFlags :
    locMode .register = some .register ∧ locOf .register 2#16 (st 7#16 0x7FFE#16 false false false 0x380000#24) = .ok (.reg .B) ∧
        (Loc.reg .B).read (st 7#16 0x7FFE#16 false false false 0x380000#24) = .ok 0x7FFE#16 ∧
      locMode .register = some .register ∧ locOf .register 2#16 (st 7#16 0x7FFF#16 false false false 0x380000#24) = .ok (.reg .B) ∧
        (Loc.reg .B).read (st 7#16 0x7FFF#16 false false false 0x380000#24) = .ok 0x7FFF#16 ∧
      locMode .register = some .register ∧ locOf .register 2#16 (st 7#16 0xFFFE#16 false false false 0x380000#24) = .ok (.reg .B) ∧
        (Loc.reg .B).read (st 7#16 0xFFFE#16 false false false 0x380000#24) = .ok 0xFFFE#16 ∧
      locMode .register = some .register ∧ locOf .register 2#16 (st 7#16 0xFFFF#16 false false false 0x380000#24) = .ok (.reg .B) ∧
        (Loc.reg .B).read (st 7#16 0xFFFF#16 false false false 0x380000#24) = .ok 0xFFFF#16 ∧
      locMode .memory = some .memory ∧ locOf .memory 0x0300#16 (st 7#16 0x0200#16 false false false 0#24) = .ok (.cell 0x0300#16) ∧
      (Loc.cell 0x0300#16).read (st 7#16 0x0200#16 false false false 0#24) = .ok 0xBEEF#16 := ⟨rfl, rfl, rfl, rfl, rfl, rfl, rfl, rfl, rfl, rfl, rfl, rfl, rfl, rfl, rfl⟩

theorem witness_DecResultAndFlags :
    locMode .register = some .register ∧ locOf .register 2#16 (st 7#16 0#16 false false false 0x380000#24) = .ok (.reg .B) ∧
        (Loc.reg .B).read (st 7#16 0#16 false false false 0x380000#24) = .ok 0#16 ∧
      locMode .register = some .register ∧ locOf .register 2#16 (st 7#16 1#16 false false false 0x380000#24) = .ok (.reg .B) ∧
        (Loc.reg .B).read (st 7#16 1#16 false false false 0x380000#24) = .ok 1#16 ∧
      locMode .register = some .register ∧ locOf .register 2#16 (st 7#16 0x8000#16 false false false 0x380000#24) = .ok (.reg .B) ∧
        (Loc.reg .B).read (st 7#16 0x8000#16 false false false 0x380000#24) = .ok 0x8000#16 ∧
      locMode .register = some .register ∧ locOf .register 2#16 (st 7#16 0x8001#16 false false false 0x380000#24) = .ok (.reg .B) ∧
        (Loc.reg .B).read (st 7#16 0x8001#16 false false false 0x380000#24) = .ok 0x8001#16 ∧
      locMode .memory = some .memory ∧ locOf .memory 0x0300#16 (st 7#16 0x0200#16 false false false 0#24) = .ok (.cell 0x0300#16) ∧
      (Loc.cell 0x0300#16).read (st 7#16 0x0200#16 false false false 0#24) = .ok 0xBEEF#16 := ⟨rfl, rfl, rfl, rfl, rfl, rfl, rfl, rfl, rfl, rfl, rfl, rfl, rfl, rfl, rfl⟩

theorem witness_NotResultAndFlags :
    locMode .register = some .register ∧ locOf .register 2#16 (st 7#16 0x7FFF#16 false false false 0x380000#24) = .ok (.reg .B) ∧
        (Loc.reg .B).read (st 7#16 0x7FFF#16 false false false 0x380000#24) = .ok 0x7FFF#16 ∧
      locMode .register = some .register ∧ locOf .register 2#16 (st 7#16 0x8000#16 false false false 0x380000#24) = .ok (.reg .B) ∧
        (Loc.reg .B).read (st 7#16 0x8000#16 false false false 0x380000#24) = .ok 0x8000#16 ∧
      locMode .register = some .register ∧ locOf .register 2#16 (st 7#16 0xFFFF#16 false false false 0x380000#24) = .ok (.reg .B) ∧
        (Loc.reg .B).read (st 7#16 0xFFFF#16 false false false 0x380000#24) = .ok 0xFFFF#16 ∧
      locMode .memory = some .memory ∧ locOf .memory 0x0300#16 (st 7#16 0x0200#16 false false false 0#24) = .ok (.cell 0x0300#16) ∧
      (Loc.cell 0x0300#16).read (st 7#16 0x0200#16 false false false 0#24) = .ok 0xBEEF#16 := ⟨rfl, rfl, rfl, rfl, rfl, rfl, rfl, rfl, rfl, rfl, rfl, rfl⟩

theorem witness_AddCarryNeverGivesZero :
    val .immediate 1#16 (st 0xFFFF#16 0#16 false false false 0x100001#24) = .ok (st 1#16 0#16 false false false 0x10FFFF#24).regA ∧
      val .immediate 0xFFFF#16 (st 1#16 0#16 false false false 0x10FFFF#24) = .ok (st 0xFFFF#16 0#16 false false false 0x100001#24).regA ∧
      exec (.add .immediate 1#16) (st 0xFFFF#16 0#16 false false false 0x100001#24) = .next (after (st 0xFFFF#16 0#16 false false false 0x100001#24)) ∧
      exec (.add .immediate 0xFFFF#16) (st 1#16 0#16 false false false 0x10FFFF#24) = .next (after (st 1#16 0#16 false false false 0x10FFFF#24)) ∧
      (after (st 0xFFFF#16 0#16 false false false 0x100001#24)).cf = true := ⟨rfl, rfl, rfl, rfl, rfl⟩

theorem witness_LogicResultAndFlags :
    val .memory 0x0300#16 (st 7#16 0x0200#16 false false false 0#24) = .ok 0xBEEF#16 := rfl

theorem witness_ShlResultAndFlags :
    regOf 2#16 = .ok .B ∧ ((st 7#16 0x7FFF#16 false false false 0x310002#24).reg .B).toNat < 32768 ∧ 32768 ≤ ((st 7#16 0x8000#16 false false false 0x310002#24).reg .B).toNat := ⟨rfl, by decide, by decide⟩

theorem witness_ShrResultAndFlags :
    regOf 1#16 = .ok .A := rfl

/-- A machine with STACK_DEPTH `d` at a PUSH B, two values on its stack. -/
def bounded (d : Nat) : State :=
  { st 7#16 0x0200#16 false false false 0x3D0002#24 with params := ⟨0xFFFF#16, some d⟩ }

theorem witness_PushAppendsRegister :
    regOf 2#16 = .ok .B ∧ (∀ d, (st 7#16 0x0200#16 false false false 0x3D0002#24).params.stackDepth = some d → (st 7#16 0x0200#16 false false false 0x3D0002#24).stk.length < d) ∧
      (∀ d, (bounded 3).params.stackDepth = some d → (bounded 3).stk.length < d) ∧
      ((bounded 2).params.stackDepth = some 2 ∧ 2 ≤ (bounded 2).stk.length) := ⟨rfl, fun d h => (by cases h), fun d h => (by cases h; decide), by decide⟩

theorem test_push_at_depth :
    exec (.push .register 2#16) (bounded 2) = .refused .stackDepthReached ∧ goesTo (bounded 3) (fun t => t.stk.length == 3) = true := ⟨rfl, by decide⟩

theorem witness_PopTakesTopOfStack :
    regOf 1#16 = .ok .A ∧ (st 7#16 0x0200#16 false false false 0x410001#24).stk = [0x0069#16] ++ [0x0101#16] := ⟨rfl, rfl⟩

theorem witness_PushThenPopRestoresRegister :
    regOf 2#16 = .ok .B ∧ exec (.push .register 2#16) (st 7#16 0x0200#16 false false false 0x3D0002#24) = .next (after (st 7#16 0x0200#16 false false false 0x3D0002#24)) ∧
      (atPc (after (st 7#16 0x0200#16 false false false 0x3D0002#24)) 9#16).stk = (after (st 7#16 0x0200#16 false false false 0x3D0002#24)).stk ∧
      (atPc (after (st 7#16 0x0200#16 false false false 0x3D0002#24)) 9#16).sp = (after (st 7#16 0x0200#16 false false false 0x3D0002#24)).sp := ⟨rfl, rfl, rfl, rfl⟩

theorem witness_JmpSetsPcToTarget :
    val .registerIndirect 2#16 (st 7#16 0x0200#16 false false false 0#24) = .ok 0x00AA#16 := rfl

theorem witness_ConditionalJumpsFollowFlags :
    val .immediate 0x0100#16 (st 7#16 0x0200#16 false false false 0#24) = .ok 0x0100#16 ∧ (st 7#16 0x0200#16 false false false 0#24).zf = false ∧ (st 7#16 0x0200#16 false false false 0#24).cf = false ∧
      (st 7#16 0#16 true true false 0x000000#24).zf = true ∧ (st 7#16 0#16 true true false 0x000000#24).cf = true := ⟨rfl, rfl, rfl, rfl, rfl⟩

theorem witness_JumpsAfterCmp :
    val .immediate 5#16 (st 5#16 0#16 false false false 0x440005#24) = .ok 5#16 ∧
        exec (.cmp .immediate 5#16) (st 5#16 0#16 false false false 0x440005#24) = .next (after (st 5#16 0#16 false false false 0x440005#24)) ∧
        val .register 3#16 (after (st 5#16 0#16 false false false 0x440005#24)) = .ok 0x0033#16 ∧
      val .immediate 5#16 (st 4#16 0#16 false false false 0x440005#24) = .ok 5#16 ∧
        exec (.cmp .immediate 5#16) (st 4#16 0#16 false false false 0x440005#24) = .next (after (st 4#16 0#16 false false false 0x440005#24)) ∧
        val .register 3#16 (after (st 4#16 0#16 false false false 0x440005#24)) = .ok 0x0033#16 := ⟨rfl, rfl, rfl, rfl, rfl, rfl⟩

theorem witness_ReadStoresOneCharacter :
    locMode .memory = some .memory ∧ locOf .memory 0x0400#16 (st 7#16 0x0200#16 false false false 0#24) = .ok (.cell 0x0400#16) ∧
      (st 7#16 0x0200#16 false false false 0#24).cin = 0x006F#16 :: [0x006B#16] := ⟨rfl, rfl, rfl⟩

theorem witness_ReadWaitsThenCompletes :
    locMode .register = some .register ∧ State.reset.cin = [] ∧ locOf .register 1#16 State.reset = .ok (.reg .A) ∧ 65535 ≤ 65535 := ⟨rfl, rfl, rfl, by decide⟩

theorem witness_PrintAppendsOneCharacter :
    val .register 1#16 (st 7#16 0x0200#16 false false false 0#24) = .ok 7#16 ∧ val .immediate 0x0048#16 (st 7#16 0x0200#16 false false false 0#24) = .ok 0x0048#16 := ⟨rfl, rfl⟩

theorem witness_UnsupportedModeIsSilentNoOp :
    (Instr.pop .memory 0x0700#16).modeSupported = false ∧ (Instr.read .immediate 1#16).modeSupported = false ∧
      (Instr.shl .immediate 9#16).modeSupported = false ∧ (Instr.store .immediate 5#16).modeSupported = false := by decide

theorem witness_OperandFaultsAreRaised :
    ((Instr.jz .memory 0x0600#16).modeUse = .value ∧
        val .memory 0x0600#16 (st 7#16 0x0200#16 false false false 0#24) = .error (.uninitializedMemoryAccess 0x0600#16)) ∧
      (modifiesLocation (.inc .memory 0x0600#16) = true ∧ locMode .memory = some .memory ∧
        locRead .memory 0x0600#16 (st 7#16 0x0200#16 false false false 0#24) = .error (.uninitializedMemoryAccess 0x0600#16)) ∧
      (locMode .register = some .register ∧ locOf .register 6#16 (st 7#16 0x0200#16 false false false 0#24) = .error (.invalidRegister 6#16)) ∧
      (st 7#16 0x0200#16 false false false 0#24).cin = 0x006F#16 :: [0x006B#16] := ⟨⟨rfl, rfl⟩, ⟨rfl, rfl, rfl⟩, ⟨rfl, rfl⟩, rfl⟩

theorem witness_InvalidRegisterExactly :
    exec (.load .register 6#16) (st 7#16 0x0200#16 false false false 0#24) = .fault (.invalidRegister 6#16) ∧ (Instr.load .register 6#16).operand = 6#16 ∧
      (Instr.load .register 6#16).usesRegisterId = true ∧ namesRegister 6#16 = false ∧
      isWaitingRead (.load .register 6#16) (st 7#16 0x0200#16 false false false 0#24) = false := ⟨rfl, rfl, rfl, rfl, rfl⟩

theorem witness_StackUnderflowExactly :
    exec (.pop .register 1#16) State.reset = .fault .stackUnderflow ∧ namesRegister 1#16 = true ∧ State.reset.stk = [] := ⟨rfl, rfl, rfl⟩

theorem witness_MemoryFaultsOnlyFromReads :
    exec (.load .memory 0x0600#16) (st 7#16 0x0200#16 false false false 0#24) = .fault (.uninitializedMemoryAccess 0x0600#16) ∧
      exec (.inc .memory 0x0030#16) (st 7#16 0x0200#16 false false false 0x1B0030#24) = .fault (.wideDataRead 0x0030#16) := ⟨rfl, rfl⟩

theorem witness_StepRunsDecodedInstruction :
    (st 7#16 0x0200#16 false false false 0x3D0002#24).run = .running ∧ (st 7#16 0x0200#16 false false false 0x3D0002#24).cell (st 7#16 0x0200#16 false false false 0x3D0002#24).pc = some 0x3D0002#24 ∧
      decode 0x3D0002#24 = .ok (.push .register 2#16) := ⟨rfl, rfl, rfl⟩

theorem witness_StepFaultsWithoutInstruction :
    (State.reset.run = .running ∧ State.reset.cell State.reset.pc = none) ∧
      (st 7#16 0x0200#16 false false false 0x03FFFF#24).cell (st 7#16 0x0200#16 false false false 0x03FFFF#24).pc = some 0x03FFFF#24 ∧ (0x03FFFF#24).toNat / 262144 = 0 ∧
      (st 7#16 0x0200#16 false false false 0x740000#24).cell (st 7#16 0x0200#16 false false false 0x740000#24).pc = some 0x740000#24 ∧ 29 ≤ (0x740000#24).toNat / 262144 ∧
      (after (st 7#16 0x0200#16 false false false 0x040000#24)).run ≠ .running := by decide

theorem witness_RunningStepIsRefusedOnlyAtStackDepth :
    State.reset.run = .running ∧ State.reset.params.stackDepth = none ∧ (bounded 2).run = .running ∧
      step (bounded 2) = .refused .stackDepthReached ∧ (bounded 2).params.stackDepth = some 2 ∧ 2 ≤ (bounded 2).stk.length ∧
      (bounded 2).cell (bounded 2).pc = some 0x3D0002#24 ∧ decode 0x3D0002#24 = .ok (.push .register 2#16) ∧ namesRegister 2#16 = true := ⟨rfl, rfl, rfl, rfl, rfl, by decide, rfl, rfl, rfl⟩

theorem witness_FaultEndsRunShowingNameAndOutput :
    (step (st 7#16 0x0200#16 false false false 0x6D0006#24) = .fault (.invalidRegister 6#16) ∧ (st 7#16 0x0200#16 false false false 0x6D0006#24).cell (st 7#16 0x0200#16 false false false 0x6D0006#24).pc = some 0x6D0006#24 ∧
        decode 0x6D0006#24 = .ok (.read .register 6#16) ∧ takesCharacter (.read .register 6#16) = true) ∧
      (step (st 7#16 0x0200#16 false false false 0x090006#24) = .fault (.invalidRegister 6#16) ∧ (st 7#16 0x0200#16 false false false 0x090006#24).cell (st 7#16 0x0200#16 false false false 0x090006#24).pc = some 0x090006#24 ∧
        decode 0x090006#24 = .ok (.load .register 6#16) ∧ takesCharacter (.load .register 6#16) = false) ∧
      (step State.reset = .fault (.uninitializedMemoryAccess 0#16) ∧ State.reset.cell State.reset.pc = none) ∧
      (step (st 7#16 0x0200#16 false false false 0x740000#24) = .fault (.illegalOpcode 0x0030#16 0x740000#24) ∧
        (st 7#16 0x0200#16 false false false 0x740000#24).cell (st 7#16 0x0200#16 false false false 0x740000#24).pc = some 0x740000#24 ∧ decode 0x740000#24 = .error (.illegalOpcode 29#6)) := ⟨⟨rfl, rfl, rfl, rfl⟩, ⟨rfl, rfl, rfl, rfl⟩, ⟨rfl, rfl⟩, ⟨rfl, rfl, rfl⟩⟩

theorem test_faulting_read_takes_character :
    (((st 7#16 0x0200#16 false false false 0x6D0006#24).enterFaulted (.invalidRegister 6#16)).resetWith []).map State.cin = .ok [0x006B#16] := rfl

theorem witness_ExecMovesPcByThree :
    (exec (.load .immediate 1#16) (st 7#16 0x0200#16 false false false 0x080001#24) = .next (after (st 7#16 0x0200#16 false false false 0x080001#24)) ∧
        isHalt (.load .immediate 1#16) = false ∧ isJump (.load .immediate 1#16) = false ∧
        isWaitingRead (.load .immediate 1#16) (st 7#16 0x0200#16 false false false 0x080001#24) = false) ∧
      (exec (.jz .immediate 1#16) (st 7#16 0x0200#16 false false false 0x4C0001#24) = .next (after (st 7#16 0x0200#16 false false false 0x4C0001#24)) ∧ isJump (.jz .immediate 1#16) = true) ∧
      (exec (.halt .immediate 0#16) (st 7#16 0x0200#16 false false false 0x040000#24) = .next (after (st 7#16 0x0200#16 false false false 0x040000#24)) ∧ isHalt (.halt .immediate 0#16) = true) := ⟨⟨rfl, rfl, rfl, rfl⟩, ⟨rfl, rfl⟩, ⟨rfl, rfl⟩⟩

theorem witness_OnlyListedInstructionsWriteFlags :
    exec (.push .register 2#16) (st 7#16 0x0200#16 false false false 0x3D0002#24) = .next (after (st 7#16 0x0200#16 false false false 0x3D0002#24)) ∧
      writesCf (.push .register 2#16) = false ∧ writesZfSf (.push .register 2#16) = false := ⟨rfl, rfl, rfl⟩

theorem witness_MemoryChangesOnlyAtNamedLocation :
    exec (.store .memory 0x0300#16) (st 7#16 0x0200#16 false false false 0x0F0300#24) = .next (after (st 7#16 0x0200#16 false false false 0x0F0300#24)) ∧
      (after (st 7#16 0x0200#16 false false false 0x0F0300#24)).cell 0x0300#16 ≠ (st 7#16 0x0200#16 false false false 0x0F0300#24).cell 0x0300#16 := ⟨rfl, by decide⟩

theorem witness_StepKeepsInvariant :
    (st 7#16 0x0200#16 false false false 0x3D0002#24).Inv ∧ step (st 7#16 0x0200#16 false false false 0x3D0002#24) = .next (after (st 7#16 0x0200#16 false false false 0x3D0002#24)) := ⟨⟨by decide, rfl, fun d h => by cases h⟩, rfl⟩

theorem witness_NoNewExecutableCell :
    Reaches (st 7#16 0x0200#16 false false false 0x0F0300#24) (after (st 7#16 0x0200#16 false false false 0x0F0300#24)) ∧ (after (st 7#16 0x0200#16 false false false 0x0F0300#24)).cell 0x0030#16 = some 0x0F0300#24 ∧
      decode 0x0F0300#24 = .ok (.store .memory 0x0300#16) := ⟨.tail (.refl _) rfl, rfl, rfl⟩

theorem witness_StoredCellIsNotExecutable :
    locMode .memory = some .memory ∧ locOf .memory 0x0033#16 (st 7#16 0x0200#16 false false false 0x0F0033#24) = .ok (.cell 0x0033#16) ∧
      exec (.store .memory 0x0033#16) (st 7#16 0x0200#16 false false false 0x0F0033#24) = .next (after (st 7#16 0x0200#16 false false false 0x0F0033#24)) ∧
      (after (st 7#16 0x0200#16 false false false 0x0F0033#24)).run = .running ∧ (after (st 7#16 0x0200#16 false false false 0x0F0033#24)).pc = 0x0033#16 ∧
      (after (st 7#16 0x0200#16 false false false 0x0F0033#24)).cell 0x0033#16 = some 7#24 := ⟨rfl, rfl, rfl, rfl, rfl, rfl⟩

theorem witness_PresentCellsStayPresent :
    Reaches (st 7#16 0x0200#16 false false false 0x0F0300#24) (after (st 7#16 0x0200#16 false false false 0x0F0300#24)) ∧ (st 7#16 0x0200#16 false false false 0x0F0300#24).cell 0x0200#16 ≠ none := ⟨.tail (.refl _) rfl, by decide⟩

theorem witness_StreamsKeepTheirOrder :
    Reaches (st 7#16 0x0200#16 false false false 0x6D0002#24) (after (st 7#16 0x0200#16 false false false 0x6D0002#24)) ∧ (after (st 7#16 0x0200#16 false false false 0x6D0002#24)).cin = [0x006B#16] := ⟨.tail (.refl _) rfl, rfl⟩

theorem witness_StackPointerIsUnobservable :
    step (st 7#16 0x0200#16 false false false 0x3D0002#24) = .next (after (st 7#16 0x0200#16 false false false 0x3D0002#24)) ∧ step State.reset = .fault (.uninitializedMemoryAccess 0#16) ∧
      step (after (st 7#16 0x0200#16 false false false 0x040000#24)) = .refused (.noStep .halted) := ⟨rfl, rfl, rfl⟩

theorem witness_SignFlagIsNeverRead :
    step (st 7#16 0x0200#16 false false false 0x100002#24) = .next (after (st 7#16 0x0200#16 false false false 0x100002#24)) ∧ step State.reset = .fault (.uninitializedMemoryAccess 0#16) ∧
      step (after (st 7#16 0x0200#16 false false false 0x040000#24)) = .refused (.noStep .halted) := ⟨rfl, rfl, rfl⟩

theorem witness_LabelAddressesCountLines :
    labelTable 0 ([.instr nopName none] ++ .label ['x'] :: [.instr haltName none]) = .ok [(['x'], 3)] ∧
      (∀ o, SourceLine.instr haltName o ∉ [SourceLine.instr nopName none]) ∧
      labelTable 0 ([.instr haltName none, .instr nopName none] ++ .label ['x'] :: []) = .ok [(['x'], 3)] := ⟨rfl, by simp [nopName, haltName], rfl⟩

theorem witness_AssembledWordsAreLegal :
    assemble ["LOAD 'A'".toList, "PRINT A".toList, "HALT".toList] = .ok ([0x080041#24, 0x710001#24, 0x040000#24].map renderWord) ∧
      classifyLines ["LOAD 'A'".toList, "PRINT A".toList, "HALT".toList] =
        .ok [.instr "LOAD".toList (some "'A'".toList), .instr "PRINT".toList (some ['A']), .instr haltName none] := ⟨rfl, rfl⟩

end Sys2Proof.Machine.Slice0
end

section
/-! PROOFS. The state after reset (10_state.md R29): each flag is clear for every choice of the open parameters, so the
machine at the default parameters has all three clear. -/

namespace Sys2Proof.Machine

@[simp] theorem State.resetFor_zf (p : Config.Params) : (State.resetFor p).zf = false := rfl

@[simp] theorem State.resetFor_cf (p : Config.Params) : (State.resetFor p).cf = false := rfl

@[simp] theorem State.resetFor_sf (p : Config.Params) : (State.resetFor p).sf = false := rfl

/-- Settles O8: `State.reset` is `State.resetFor` at the default parameters, and `resetFor` clears each flag. -/
theorem resetFlagsAreZero : Obligations.ResetFlagsAreZero :=
  ⟨State.resetFor_zf Config.defaultParams, State.resetFor_cf Config.defaultParams,
    State.resetFor_sf Config.defaultParams⟩

end Sys2Proof.Machine
end

section
/-! PROOFS. The number codec (30_encoding.md R82, R83, R85): `decodeTriple` is three quotients and remainders, and
`encodeTriple` answers exactly the word that decodes to its arguments. -/

namespace Sys2Proof

theorem decodeTriple_eq (w : InstrWord) :
    decodeTriple w = (w.toNat / 262144, w.toNat / 65536 % 4, w.toNat % 65536) := by
  rw [decodeTriple, opcodeField_toNat, modeField_toNat, operandField_toNat]

theorem encodeTriple_of_bounds {o m k : Nat} (h : o ≤ 63 ∧ m ≤ 3 ∧ k ≤ 65535) :
    encodeTriple o m k = .ok (BitVec.ofNat 24 (o * 262144 + m * 65536 + k)) := if_pos h

theorem encodeTriple_of_not_bounds {o m k : Nat} (h : ¬ (o ≤ 63 ∧ m ≤ 3 ∧ k ≤ 65535)) :
    encodeTriple o m k = .error .encodingRange := if_neg h

/-- Within the field bounds nothing of the value is cut off at 24 bits. -/
theorem encodeTriple_value {o m k : Nat} (h : o ≤ 63 ∧ m ≤ 3 ∧ k ≤ 65535) :
    ∃ w, encodeTriple o m k = .ok w ∧ w.toNat = o * 262144 + m * 65536 + k := by
  refine ⟨_, encodeTriple_of_bounds h, ?_⟩
  rw [BitVec.toNat_ofNat]
  omega

/-- The codec's two directions are inverse relations (R85). -/
theorem encodeTriple_eq_ok_iff (o m k : Nat) (w : InstrWord) :
    encodeTriple o m k = .ok w ↔ decodeTriple w = (o, m, k) := by
  have hw := w.isLt
  rw [decodeTriple_eq, Prod.mk.injEq, Prod.mk.injEq]
  constructor
  · intro h
    by_cases hb : o ≤ 63 ∧ m ≤ 3 ∧ k ≤ 65535
    · obtain ⟨v, hv, hval⟩ := encodeTriple_value hb
      obtain rfl : v = w := Except.ok.inj (hv.symm.trans h)
      omega
    · simp [encodeTriple_of_not_bounds hb] at h
  · intro h
    obtain ⟨v, hv, hval⟩ := encodeTriple_value (o := o) (m := m) (k := k) (by omega)
    have hvw : v = w := BitVec.eq_of_toNat_eq (by omega)
    rw [hv, hvw]

/-- Settles O5: each field's value is its quotient or remainder. -/
theorem decodeTripleByDivision : Obligations.DecodeTripleByDivision := decodeTriple_eq

/-- Settles O4: the two branches of the bounds check. -/
theorem encodeTripleValueOrRangeError : Obligations.EncodeTripleValueOrRangeError :=
  fun _ _ _ => ⟨encodeTriple_value, encodeTriple_of_not_bounds⟩

/-- Settles O3: both halves are `encodeTriple_eq_ok_iff`, the first at the word that encoding within bounds answers. -/
theorem codecTriplesBijection : Obligations.CodecTriplesBijection := by
  constructor
  · intro o m k ho hm hk
    obtain ⟨w, hw, -⟩ := encodeTriple_value ⟨ho, hm, hk⟩
    exact ⟨w, hw, (encodeTriple_eq_ok_iff o m k w).mp hw⟩
  · exact fun w => (encodeTriple_eq_ok_iff _ _ _ w).mpr rfl

end Sys2Proof
end

section
/-! PROOFS. The image line of a word (30_encoding.md R88): `hexDigit` reads back what `hexChar` prints, so reading a line of
printed digits sums them in base 16. -/

namespace Sys2Proof.Machine

theorem hexDigit_hexChar : ∀ d < 16, hexDigit (hexChar d) = some d := by decide

theorem hexChar_mem_hexDigits : ∀ d < 16,
    hexChar d ∈ ['0', '1', '2', '3', '4', '5', '6', '7', '8', '9', 'A', 'B', 'C', 'D', 'E', 'F'] := by decide

@[simp] theorem hexNumber_nil (acc : Nat) : hexNumber acc [] = some acc := rfl

@[simp] theorem hexNumber_hexChar_cons (acc n : Nat) (l : List Char) :
    hexNumber acc (hexChar (n % 16) :: l) = hexNumber (acc * 16 + n % 16) l := by
  simp only [hexNumber, hexDigit_hexChar (n % 16) (Nat.mod_lt n (by decide))]

@[simp] theorem renderWord_length (w : InstrWord) : (renderWord w).length = 6 := rfl

theorem mem_renderWord {w : InstrWord} {c : Char} (h : c ∈ renderWord w) : ∃ n, c = hexChar (n % 16) := by
  simp only [renderWord, List.mem_cons, List.not_mem_nil, or_false] at h
  obtain h | h | h | h | h | h := h <;> exact ⟨_, h⟩

/-- Reading the image line of a word gives the word back, from the most significant digit on. -/
theorem hexNumber_renderWord (w : InstrWord) : hexNumber 0 (renderWord w) = some w.toNat := by
  have hw := w.isLt
  simp only [renderWord, hexNumber_hexChar_cons, hexNumber_nil, Option.some.injEq]
  omega

theorem hexNumber_renderWord_take (w : InstrWord) :
    hexNumber 0 ((renderWord w).take 2) = some (w.toNat / 65536) := by
  have hw := w.isLt
  simp only [renderWord, List.take_succ_cons, List.take_zero, hexNumber_hexChar_cons, hexNumber_nil, Option.some.injEq]
  omega

theorem hexNumber_renderWord_drop (w : InstrWord) :
    hexNumber 0 ((renderWord w).drop 2) = some (w.toNat % 65536) := by
  simp only [renderWord, List.drop_succ_cons, List.drop_zero, hexNumber_hexChar_cons, hexNumber_nil, Option.some.injEq]
  omega

/-- Settles O10: every character prints a base-16 digit, and the line is cut where the operand field begins. -/
theorem imageLineIsSixHexDigits : Obligations.ImageLineIsSixHexDigits := by
  intro w
  refine ⟨renderWord_length w, fun c hc => ?digit, hexNumber_renderWord w, ?head, ?tail⟩
  case digit =>
    obtain ⟨n, rfl⟩ := mem_renderWord hc
    exact hexChar_mem_hexDigits _ (Nat.mod_lt n (by decide))
  case head =>
    have hsplit : (decodeTriple w).1 * 4 + (decodeTriple w).2.1 = w.toNat / 65536 := by
      simp only [decodeTriple_eq]
      omega
    rw [hexNumber_renderWord_take, hsplit]
  case tail => rw [hexNumber_renderWord_drop, decodeTriple_eq]

end Sys2Proof.Machine
end

section
/-! PROOFS. Which faults an instruction raises (60_exceptions.md R244, 40_execution_cycle.md R128, R129): every fault is
the one that reading the operand as a value would raise, except the StackUnderflow of a POP that names a register. Reading
an operand never touches the stack, so StackUnderflow is POP's alone. -/

namespace Sys2Proof.Machine

/-- A fault comes from the value asked for, or from what is done with it. -/
theorem orFault_fault {α : Type} {x : Except Fault α} {f : α → Out} {e : Fault} (h : orFault x f = .fault e) :
    x = .error e ∨ ∃ a, x = .ok a ∧ f a = .fault e := by
  cases x with
  | ok a => exact .inr ⟨a, rfl, h⟩
  | error e' => cases h; exact .inl rfl

/-! ### The faults of the operand primitives -/

theorem namesRegister_of_regOf_ok {k : Word} {r : Reg} (h : regOf k = .ok r) : namesRegister k = true := by
  obtain ⟨hk, _⟩ | ⟨_, he⟩ := regOf_cases k
  · exact hk
  · rw [he] at h; cases h

theorem val_register_of_error {k : Word} {e : Fault} (h : regOf k = .error e) (s : State) :
    val .register k s = .error e := by
  simp [val, h]

theorem val_registerIndirect_of_error {k : Word} {e : Fault} (h : regOf k = .error e) (s : State) :
    val .registerIndirect k s = .error e := by
  simp [val, h]

theorem memRead_ne_stackUnderflow (a : Word) (s : State) : memRead a s ≠ .error .stackUnderflow := by
  obtain ⟨_, h⟩ | ⟨_, _, _, h⟩ | ⟨_, _, _, h⟩ := memRead_cases a s <;> rw [h] <;> nofun

/-- Reading an operand does not pop (R125). -/
theorem val_ne_stackUnderflow (m : Mode) (k : Word) (s : State) : val m k s ≠ .error .stackUnderflow := by
  cases m with
  | immediate => nofun
  | memory => exact memRead_ne_stackUnderflow k s
  | register =>
    obtain ⟨_, r, h⟩ | ⟨_, h⟩ := regOf_cases k
    · rw [val_register h]; nofun
    · rw [val_register_of_error h]; nofun
  | registerIndirect =>
    obtain ⟨_, r, h⟩ | ⟨_, h⟩ := regOf_cases k
    · rw [val_registerIndirect h]; exact memRead_ne_stackUnderflow (s.reg r) s
    · rw [val_registerIndirect_of_error h]; nofun

/-- Whether an operand names a location does not depend on the state (R127). -/
theorem locOf_error_of_locOf_error {l : LocMode} {k : Word} {t : State} {e : Fault} (h : locOf l k t = .error e)
    (s : State) : locOf l k s = .error e := by
  cases l with
  | memory => cases h
  | register => exact h
  | registerIndirect =>
    cases hk : regOf k with
    | ok r => simp [locOf, hk] at h
    | error f => simpa [locOf, hk] using h

/-- A write faults only where the operand names no location (20_memory.md R57), and reading it raises the same fault. -/
theorem val_error_of_locWrite_error {m : Mode} {l : LocMode} {k v : Word} {t : State} {e : Fault}
    (hl : locMode m = some l) (h : locWrite l k v t = .error e) (s : State) : val m k s = .error e := by
  rw [← locRead_eq_val hl]
  cases hp : locOf l k t with
  | ok p => rw [locWrite_of_locOf hp] at h; cases h
  | error f =>
    obtain rfl : f = e := by simpa [locWrite, hp] using h
    simp [locRead, locOf_error_of_locOf_error hp s]

/-! ### The faults of the operand guards -/

/-- An instruction that raises nothing of its own raises what its value operand raises. -/
theorem val_error_of_fault {m : Mode} {k : Word} {s : State} {f : Word → Out} {e : Fault}
    (h : orFault (val m k s) f = .fault e) (hf : ∀ v, f v ≠ .fault e) : val m k s = .error e := by
  obtain h | ⟨v, _, h⟩ := orFault_fault h
  · exact h
  · exact absurd h (hf v)

theorem onLocation_fault {m : Mode} {s : State} {f : LocMode → Out} {e : Fault} (h : onLocation m s f = .fault e) :
    ∃ l, locMode m = some l ∧ f l = .fault e := by
  unfold onLocation at h
  cases hl : locMode m with
  | none => rw [hl] at h; cases h
  | some l => rw [hl] at h; exact ⟨l, rfl, h⟩

/-- A guarded register operand: the fault of the operand, or of the rule on the named register. -/
theorem onRegister_fault {m : Mode} {k : Word} {s : State} {f : Reg → Out} {e : Fault}
    (h : onRegister m k s f = .fault e) :
    val m k s = .error e ∨ (m = .register ∧ ∃ r, regOf k = .ok r ∧ f r = .fault e) := by
  by_cases hm : m = .register
  · subst hm
    exact (orFault_fault h).imp (val_register_of_error · s) (⟨rfl, ·⟩)
  · rw [onRegister_other hm] at h
    cases h

/-- Write a location and fall through: the form of STORE, of the end of READ and of the end of INC, DEC and NOT. -/
theorem val_error_of_locWrite_fault {m : Mode} {l : LocMode} {k v : Word} {t : State} {f : State → State} {e : Fault}
    (hl : locMode m = some l) (h : orFault (locWrite l k v t) (fun u => fallThrough (f u)) = .fault e) (s : State) :
    val m k s = .error e := by
  obtain h | ⟨_, _, h⟩ := orFault_fault h
  · exact val_error_of_locWrite_error hl h s
  · cases h

/-- Read a location, write it back and fall through: the form of INC, DEC and NOT. -/
theorem val_error_of_locModify_fault {m : Mode} {k : Word} {s : State} {g : Word → Word} {f : Word → State → State}
    {e : Fault}
    (h : (onLocation m s fun l =>
      orFault (locRead l k s) fun v =>
        orFault (locWrite l k (g v) s) fun t => fallThrough (f v t)) = .fault e) : val m k s = .error e := by
  obtain ⟨l, hl, h⟩ := onLocation_fault h
  obtain h | ⟨v, _, h⟩ := orFault_fault h
  · rwa [locRead_eq_val hl] at h
  · exact val_error_of_locWrite_fault hl h s

/-! ### The faults of the instructions -/

theorem modifyArith_fault {m : Mode} {k : Word} {raw : Word → Int} {s : State} {e : Fault}
    (h : modifyArith m k raw s = .fault e) : val m k s = .error e :=
  val_error_of_locModify_fault h

theorem execNot_fault {m : Mode} {k : Word} {s : State} {e : Fault} (h : execNot m k s = .fault e) :
    val m k s = .error e :=
  val_error_of_locModify_fault h

theorem execStore_fault {m : Mode} {k : Word} {s : State} {e : Fault} (h : execStore m k s = .fault e) :
    val m k s = .error e := by
  obtain ⟨l, hl, h⟩ := onLocation_fault h
  exact val_error_of_locWrite_fault (f := id) hl h s

theorem execRead_fault {m : Mode} {k : Word} {s : State} {e : Fault} (h : execRead m k s = .fault e) :
    val m k s = .error e := by
  obtain ⟨l, hl, h⟩ := onLocation_fault h
  obtain ⟨_, hc⟩ | ⟨c, rest, _, hc⟩ := charIn_cases s <;> rw [hc] at h
  · cases h
  · exact val_error_of_locWrite_fault (f := id) hl h s

/-- The target of a conditional jump is read first, taken or not (R201). -/
theorem jumpIf_fault {c : Bool} {m : Mode} {k : Word} {s : State} {e : Fault} (h : jumpIf c m k s = .fault e) :
    val m k s = .error e :=
  val_error_of_fault h fun _ => by cases c <;> nofun

theorem execShl_fault {m : Mode} {k : Word} {s : State} {e : Fault} (h : execShl m k s = .fault e) :
    val m k s = .error e := by
  obtain h | ⟨_, r, _, h⟩ := onRegister_fault h
  · exact h
  · cases h

theorem execShr_fault {m : Mode} {k : Word} {s : State} {e : Fault} (h : execShr m k s = .fault e) :
    val m k s = .error e := by
  obtain h | ⟨_, r, _, h⟩ := onRegister_fault h
  · exact h
  · cases h

/-- A full stack stops PUSH, but raises no fault (log 6). -/
theorem execPush_fault {m : Mode} {k : Word} {s : State} {e : Fault} (h : execPush m k s = .fault e) :
    val m k s = .error e := by
  obtain h | ⟨_, r, _, h⟩ := onRegister_fault h
  · exact h
  · obtain ⟨_, hp⟩ | ⟨_, hp⟩ := pushOrStop_cases (s.reg r) s <;> rw [hp] at h <;> cases h

/-- POP raises the fault of its operand, or StackUnderflow on an empty stack. -/
theorem execPop_fault {m : Mode} {k : Word} {s : State} {e : Fault} (h : execPop m k s = .fault e) :
    val m k s = .error e ∨ (m = .register ∧ namesRegister k = true ∧ s.stk = [] ∧ e = .stackUnderflow) := by
  obtain h | ⟨hm, r, hr, h⟩ := onRegister_fault h
  · exact .inl h
  · obtain ⟨hs, hp⟩ | ⟨_, _, _, hp⟩ := pop_cases s <;> rw [hp] at h <;> cases h
    exact .inr ⟨hm, namesRegister_of_regOf_ok hr, hs, rfl⟩

theorem execPop_register_of_empty {k : Word} {s : State} (hk : namesRegister k = true) (hs : s.stk = []) :
    execPop .register k s = .fault .stackUnderflow := by
  obtain ⟨_, r, hr⟩ | ⟨hn, _⟩ := regOf_cases k
  · obtain ⟨_, hp⟩ | ⟨_, _, hne, _⟩ := pop_cases s
    · simp [execPop, hr, hp]
    · simp [hs] at hne
  · simp [hk] at hn

/-- Every fault of an instruction is the one that reading its operand as a value raises, or the StackUnderflow of a POP
that names a register, on an empty stack. -/
theorem exec_fault {i : Instr} {s : State} {e : Fault} (h : exec i s = .fault e) :
    val i.mode i.operand s = .error e ∨
    ∃ k, i = .pop .register k ∧ namesRegister k = true ∧ s.stk = [] ∧ e = .stackUnderflow := by
  cases i with
  | pop m k =>
    refine (execPop_fault h).imp id ?_
    rintro ⟨rfl, hpop⟩
    exact ⟨k, rfl, hpop⟩
  | halt m k => cases h
  | nop m k => cases h
  | load m k => exact .inl (val_error_of_fault h fun _ => nofun)
  | add m k => exact .inl (val_error_of_fault h fun _ => nofun)
  | sub m k => exact .inl (val_error_of_fault h fun _ => nofun)
  | cmp m k => exact .inl (val_error_of_fault h fun _ => nofun)
  | xor m k => exact .inl (val_error_of_fault h fun _ => nofun)
  | and m k => exact .inl (val_error_of_fault h fun _ => nofun)
  | or m k => exact .inl (val_error_of_fault h fun _ => nofun)
  | print m k => exact .inl (val_error_of_fault h fun _ => nofun)
  | jmp m k => exact .inl (val_error_of_fault h fun _ => nofun)
  | jz m k => exact .inl (jumpIf_fault h)
  | jnz m k => exact .inl (jumpIf_fault h)
  | jc m k => exact .inl (jumpIf_fault h)
  | jnc m k => exact .inl (jumpIf_fault h)
  | ja m k => exact .inl (jumpIf_fault h)
  | jae m k => exact .inl (jumpIf_fault h)
  | jb m k => exact .inl (jumpIf_fault h)
  | jbe m k => exact .inl (jumpIf_fault h)
  | store m k => exact .inl (execStore_fault h)
  | read m k => exact .inl (execRead_fault h)
  | inc m k => exact .inl (modifyArith_fault h)
  | dec m k => exact .inl (modifyArith_fault h)
  | not m k => exact .inl (execNot_fault h)
  | shl m k => exact .inl (execShl_fault h)
  | shr m k => exact .inl (execShr_fault h)
  | push m k => exact .inl (execPush_fault h)

/-- Settles O42: by `exec_fault` the fault is the operand's, which is never StackUnderflow, or POP's. -/
theorem stackUnderflowExactly : Obligations.StackUnderflowExactly := by
  intro i s
  constructor
  · intro h
    obtain hv | ⟨k, hi, hk, hs, _⟩ := exec_fault h
    · exact absurd hv (val_ne_stackUnderflow i.mode i.operand s)
    · exact ⟨k, hi, hk, hs⟩
  · rintro ⟨k, rfl, hk, hs⟩
    exact execPop_register_of_empty hk hs

end Sys2Proof.Machine
end

section
/-! PROOFS. The codec on instructions (30_encoding.md R81 to R83, R89, R92): a word decodes to an instruction exactly when it
is that instruction's encoding, and decodes to none exactly when its opcode field is outside 1 to 28. -/

namespace Sys2Proof

/-- The opcode map answers an instruction exactly when the three fields are that instruction's own. -/
theorem instrOfOpcode_eq_some_iff {o : BitVec 6} {m : Mode} {k : Word} {i : Instr} :
    instrOfOpcode o m k = some i ↔ o = i.opcode ∧ m = i.mode ∧ k = i.operand := by
  constructor
  · intro h
    unfold instrOfOpcode at h
    split at h <;> cases h <;> exact ⟨BitVec.eq_of_toNat_eq ‹_›, rfl, rfl⟩
  · rintro ⟨rfl, rfl, rfl⟩
    cases i <;> rfl

/-- The opcode map has no entry exactly for 0 and 29 to 63 (R92). -/
theorem instrOfOpcode_eq_none_iff {o : BitVec 6} {m : Mode} {k : Word} :
    instrOfOpcode o m k = none ↔ o.toNat = 0 ∨ 29 ≤ o.toNat := by
  unfold instrOfOpcode
  split <;> grind

/-- Packing the three fields of a word gives the word back: the cut drops no bit (R81). -/
theorem packFields_fields (w : InstrWord) : packFields (opcodeField w) (modeField w) (operandField w) = w := by
  apply BitVec.eq_of_toNat_eq
  rw [packFields_toNat, opcodeField_toNat, modeField_toNat, operandField_toNat]
  omega

theorem decode_eq_ok_iff_instrOfOpcode {w : InstrWord} {i : Instr} :
    decode w = .ok i ↔ instrOfOpcode (opcodeField w) (Mode.ofBits (modeField w)) (operandField w) = some i := by
  unfold decode
  split <;> simp_all

theorem decode_eq_error_iff {w : InstrWord} {e : DecodeError} :
    decode w = .error e ↔
      e = .illegalOpcode (opcodeField w) ∧ (w.toNat / 262144 = 0 ∨ 29 ≤ w.toNat / 262144) := by
  rw [← opcodeField_toNat, ← instrOfOpcode_eq_none_iff (m := Mode.ofBits (modeField w)) (k := operandField w), decode]
  cases instrOfOpcode (opcodeField w) (Mode.ofBits (modeField w)) (operandField w) <;> simp [eq_comm]

/-- The codec's two directions are inverse relations. -/
theorem decode_eq_ok_iff {w : InstrWord} {i : Instr} : decode w = .ok i ↔ encode i = w := by
  rw [decode_eq_ok_iff_instrOfOpcode, instrOfOpcode_eq_some_iff]
  constructor
  · rintro ⟨ho, hm, hk⟩
    rw [encode, ← ho, ← hm, ← hk, Mode.toBits_ofBits, packFields_fields]
  · rintro rfl
    simp [encode]

theorem opcodeField_of_decode {w : InstrWord} {i : Instr} (h : decode w = .ok i) : opcodeField w = i.opcode :=
  (instrOfOpcode_eq_some_iff.mp (decode_eq_ok_iff_instrOfOpcode.mp h)).1

/-- Settles O1: the encoding's fields are the instruction's own, and the opcode map inverts the numbering. -/
theorem decodeOfEncodeIsIdentity : Obligations.DecodeOfEncodeIsIdentity :=
  fun _ => decode_eq_ok_iff.mpr rfl

/-- Settles O2: the other direction of `decode_eq_ok_iff`. -/
theorem encodeOfDecodeIsIdentity : Obligations.EncodeOfDecodeIsIdentity :=
  fun _ _ => decode_eq_ok_iff.mp

/-- Settles O6: the refusals are `decode_eq_error_iff`; what is not refused has the opcode of its field. -/
theorem decodeRefusesExactlyIllegalOpcodes : Obligations.DecodeRefusesExactlyIllegalOpcodes := by
  refine fun w => ⟨by simp [decode_eq_error_iff], fun hlegal => ?_⟩
  cases h : decode w with
  | ok i => exact ⟨i, rfl, by rw [← opcodeField_of_decode h, opcodeField_toNat]⟩
  | error e => exact absurd (decode_eq_error_iff.mp h).2 hlegal

/-- Settles O7: each word is cut and looked up; two opcode fields have no operation. -/
theorem wordsFromTheSpecDecode : Obligations.WordsFromTheSpecDecode :=
  ⟨rfl, rfl, rfl, rfl, rfl, rfl, rfl, rfl, rfl, rfl⟩

end Sys2Proof
end

section
/-! PROOFS. What every run keeps (10_state.md R33, 20_memory.md R50, R57, R58, R61, R65): each part of the state is followed
through one step by `exec_effect`, then through a run by `Reaches.lift`. -/

namespace Sys2Proof.Machine

theorem step_effect {s t : State} (h : step s = .next t) : Effect s t := by
  obtain ⟨_, _, _, _, _, he⟩ := step_next h
  exact exec_effect he

/-- A relation between states that is reflexive and transitive and holds along every step holds along every run. -/
theorem Reaches.lift {R : State → State → Prop} (hrefl : ∀ s, R s s) (htrans : ∀ {s t u}, R s t → R t u → R s u)
    (hstep : ∀ {s t}, step s = .next t → R s t) {s t : State} (h : Reaches s t) : R s t := by
  induction h with
  | refl => exact hrefl _
  | tail _ hs ih => exact htrans ih (hstep hs)

/-! ### The invariant -/

/-- A push lowers the pointer by 2 for one more element. -/
theorem sub_two_of_push (x : Word) (n : Nat) :
    x - BitVec.ofNat 16 (2 * n) - 2#16 = x - BitVec.ofNat 16 (2 * (n + 1)) := by
  rw [Nat.mul_succ, BitVec.ofNat_add]
  ring

/-- What the invariant speaks of, when neither stack nor parameters changed. -/
theorem State.Inv.of_mem_wf {s t : State} (hs : s.Inv) (hmem : t.mem.wf) (hstk : t.stk = s.stk) (hsp : t.sp = s.sp)
    (hparams : t.params = s.params) : t.Inv := by
  obtain ⟨_, hlaw, hdepth⟩ := hs
  refine ⟨hmem, ?_, ?_⟩
  · rw [State.SpLaw, hsp, hparams, hstk, hlaw]
  · rwa [State.WithinDepth, hparams, hstk]

theorem Effect.params_eq {s t : State} (h : Effect s t) : t.params = s.params := by
  cases h with
  | quiet h => obtain ⟨_, _, _, _, _, _, hp⟩ := h; exact hp
  | wrote p v h => obtain ⟨_, _, _, _, _, _, hp⟩ := h; exact hp
  | pushed v _ h => obtain ⟨_, _, _, _, _, _, hp⟩ := h; exact hp
  | popped v h => obtain ⟨_, _, _, _, _, _, hp⟩ := h; exact hp
  | halted h => rw [h]
  | read p c h => obtain ⟨_, _, _, _, _, _, hp⟩ := h; exact hp
  | printed v h => obtain ⟨_, _, _, _, _, _, hp⟩ := h; exact hp

theorem Effect.inv {s t : State} (h : Effect s t) (hs : s.Inv) : t.Inv := by
  obtain ⟨hwf, hlaw, hdepth⟩ := id hs
  cases h with
  | quiet h =>
    obtain ⟨hm, hstk, hsp, _, _, _, hp⟩ := h
    exact hs.of_mem_wf (hm ▸ hwf) hstk hsp hp
  | wrote p v h =>
    obtain ⟨hm, hstk, hsp, _, _, _, hp⟩ := h
    exact hs.of_mem_wf (hm ▸ p.write_wf v hwf) hstk hsp hp
  | read p c h =>
    obtain ⟨hm, hstk, hsp, _, _, _, hp⟩ := h
    exact hs.of_mem_wf (hm ▸ p.write_wf c hwf) hstk hsp hp
  | printed v h =>
    obtain ⟨hm, hstk, hsp, _, _, _, hp⟩ := h
    exact hs.of_mem_wf (hm ▸ hwf) hstk hsp hp
  | halted h => subst h; exact hs
  | pushed v room h =>
    obtain ⟨hm, hstk, hsp, _, _, _, hp⟩ := h
    refine ⟨hm ▸ hwf, ?_, fun d hd => ?_⟩
    · rw [State.SpLaw, hsp, hp, hstk, hlaw, List.length_append, List.length_singleton, sub_two_of_push]
    · rw [hstk, List.length_append, List.length_singleton]
      exact (hasRoom_iff s).mp room d (hp ▸ hd)
  | popped v h =>
    obtain ⟨hm, hstk, hsp, _, _, _, hp⟩ := h
    have hlen : s.stk.length = t.stk.length + 1 := by rw [hstk, List.length_append, List.length_singleton]
    refine ⟨hm ▸ hwf, ?_, fun d hd => ?_⟩
    · rw [State.SpLaw, hsp, hp, hlaw, hlen, ← sub_two_of_push, BitVec.sub_add_cancel]
    · have := hdepth d (hp ▸ hd)
      omega

/-- Settles O51: the seven effects an instruction can have each keep the three facts. -/
theorem stepKeepsInvariant : Obligations.StepKeepsInvariant :=
  fun _ _ h => ⟨(step_effect h).params_eq, (step_effect h).inv⟩

/-- Settles O52: nothing is listed, nothing is stacked, and `sp` starts at SP_INIT. -/
theorem resetHasInvariant : Obligations.ResetHasInvariant := by
  have hreset : ∀ p, (State.resetFor p).Inv := fun p =>
    ⟨Memory.wf_nil, by simp [State.SpLaw, State.resetFor], fun d _ => Nat.zero_le d⟩
  exact ⟨hreset _, hreset⟩

/-! ### Cells -/

/-- What a data write leaves in a cell has opcode field 0, so it is no instruction (R58). -/
theorem decode_setWidth (v : Word) : decode (v.setWidth 24) = .error (.illegalOpcode (opcodeField (v.setWidth 24))) := by
  have hv := v.isLt
  refine decode_eq_error_iff.mpr ⟨rfl, .inl ?_⟩
  rw [BitVec.toNat_setWidth]
  omega

theorem cell_of_mem_eq {s t : State} (h : t.mem = s.mem) (a : Word) : t.cell a = s.cell a := by
  rw [State.cell, State.cell, h]

/-- A location's write leaves a cell as it was, or with the zero-extended value. -/
theorem Loc.write_cell_cases (p : Loc) (v : Word) (s : State) (a : Word) :
    (p.write v s).cell a = s.cell a ∨ (p.write v s).cell a = some (v.setWidth 24) := by
  cases p with
  | reg r => exact .inl (setReg_cell s r v a)
  | cell x => rw [Loc.write, memWrite_cell]; split <;> simp

/-- An instruction leaves a cell as it was, or with a zero-extended data word. -/
theorem Effect.cell_cases {s t : State} (h : Effect s t) (a : Word) :
    t.cell a = s.cell a ∨ ∃ v : Word, t.cell a = some (v.setWidth 24) := by
  cases h with
  | quiet h => exact .inl (cell_of_mem_eq h.1 a)
  | wrote p v h => rw [cell_of_mem_eq h.1]; exact (p.write_cell_cases v s a).imp_right (⟨v, ·⟩)
  | pushed v _ h => exact .inl (cell_of_mem_eq h.1 a)
  | popped v h => exact .inl (cell_of_mem_eq h.1 a)
  | halted h => exact .inl (h ▸ rfl)
  | read p c h => rw [cell_of_mem_eq h.1]; exact (p.write_cell_cases c s a).imp_right (⟨c, ·⟩)
  | printed v h => exact .inl (cell_of_mem_eq h.1 a)

/-- Every executable cell of `t` is one of `s`, with the same word. -/
def NoNewCode (s t : State) : Prop :=
  ∀ (a : Word) (w : InstrWord) (i : Instr), t.cell a = some w → decode w = .ok i → s.cell a = some w

theorem step_noNewCode {s t : State} (h : step s = .next t) : NoNewCode s t := by
  intro a w i hw hi
  obtain hc | ⟨v, hc⟩ := (step_effect h).cell_cases a
  · rw [← hc, hw]
  · obtain rfl : w = v.setWidth 24 := Option.some.inj (hw.symm.trans hc)
    rw [decode_setWidth] at hi
    cases hi

/-- Settles O53: a step makes no cell executable, and so along the run. -/
theorem noNewExecutableCell : Obligations.NoNewExecutableCell := by
  intro s t a w i h
  have hrun : NoNewCode s t :=
    h.lift (fun _ _ _ _ hw _ => hw) (fun hst htu a w i hw hi => hst a w i (htu a w i hw hi) hi) step_noNewCode
  exact hrun a w i

/-- Every present cell of `s` is present in `t`. -/
def PresentKept (s t : State) : Prop := ∀ a : Word, s.cell a ≠ none → t.cell a ≠ none

theorem step_presentKept {s t : State} (h : step s = .next t) : PresentKept s t := by
  intro a hs
  obtain hc | ⟨v, hc⟩ := (step_effect h).cell_cases a <;> rw [hc]
  · exact hs
  · nofun

/-- Settles O55: no step empties a cell. -/
theorem presentCellsStayPresent : Obligations.PresentCellsStayPresent := by
  intro s t a h
  have hrun : PresentKept s t :=
    h.lift (fun _ _ hs => hs) (fun hst htu a hs => htu a (hst a hs)) step_presentKept
  exact hrun a

/-! ### Character streams -/

/-- The sink of `t` begins with that of `s`, the source of `t` is a tail of that of `s`. -/
def StreamsOrdered (s t : State) : Prop := s.cout <+: t.cout ∧ t.cin <:+ s.cin

theorem Effect.streamsOrdered {s t : State} (h : Effect s t) : StreamsOrdered s t := by
  cases h with
  | quiet h => obtain ⟨_, _, _, _, hin, hout, _⟩ := h; simp [StreamsOrdered, hin, hout]
  | wrote p v h => obtain ⟨_, _, _, _, hin, hout, _⟩ := h; simp [StreamsOrdered, hin, hout]
  | pushed v _ h => obtain ⟨_, _, _, _, hin, hout, _⟩ := h; simp [StreamsOrdered, hin, hout]
  | popped v h => obtain ⟨_, _, _, _, hin, hout, _⟩ := h; simp [StreamsOrdered, hin, hout]
  | halted h => simp [StreamsOrdered, h]
  | read p c h => obtain ⟨_, _, _, _, hin, hout, _⟩ := h; simp [StreamsOrdered, hin, hout]
  | printed v h => obtain ⟨_, _, _, _, hin, hout, _⟩ := h; simp [StreamsOrdered, hin, hout]

/-- Settles O56: PRINT appends to the sink, READ takes from the front of the source, nothing else touches either. -/
theorem streamsKeepTheirOrder : Obligations.StreamsKeepTheirOrder :=
  fun _ _ h => h.lift (R := StreamsOrdered) (fun _ => by simp [StreamsOrdered])
    (fun ⟨hout, hin⟩ ⟨hout', hin'⟩ => ⟨hout.trans hout', hin'.trans hin⟩) fun hs => (step_effect hs).streamsOrdered

end Sys2Proof.Machine
end

section
/-! PROOFS. Fields that no step reads (10_state.md R27, R33). A relation between two states hides what it lets differ when
related states agree on everything an instruction reads and every update of the state keeps them related (`Hides`). Two
related states then step alike, which is proved once for all such relations and used for `sp` and for SF. -/

namespace Sys2Proof.Machine

/-- `s` and `t` agree on all that an instruction or the fetch reads. -/
structure SameView (s t : State) : Prop where
  params : t.params = s.params
  reg : ∀ q, t.reg q = s.reg q
  zf : t.zf = s.zf
  cf : t.cf = s.cf
  pc : t.pc = s.pc
  run : t.run = s.run
  mem : t.mem = s.mem
  stk : t.stk = s.stk
  cin : t.cin = s.cin

/-- The states that `R` relates look alike, and stay related under every update of the state. -/
structure Hides (R : State → State → Prop) : Prop where
  view : ∀ {s t}, R s t → SameView s t
  setReg : ∀ {s t}, R s t → ∀ r v, R (s.setReg r v) (t.setReg r v)
  memWrite : ∀ {s t}, R s t → ∀ a v, R (memWrite a v s) (memWrite a v t)
  setPc : ∀ {s t}, R s t → ∀ v, R (s.setPc v) (t.setPc v)
  setArithFlags : ∀ {s t}, R s t → ∀ x, R (s.setArithFlags x) (t.setArithFlags x)
  setLogicFlags : ∀ {s t}, R s t → ∀ v, R (s.setLogicFlags v) (t.setLogicFlags v)
  push : ∀ {s t}, R s t → ∀ v, R (push v s) (push v t)
  popTo : ∀ {s t}, R s t → ∀ rest, R { s with stk := rest, sp := s.sp + 2#16 } { t with stk := rest, sp := t.sp + 2#16 }
  charIn : ∀ {s t}, R s t → ∀ rest, R { s with cin := rest } { t with cin := rest }
  charOut : ∀ {s t}, R s t → ∀ v, R (charOut v s) (charOut v t)
  halt : ∀ {s t}, R s t → R { s with run := .halted } { t with run := .halted }

/-- The same outcome, up to `R` where it is a next state. -/
inductive Alike (R : State → State → Prop) : Out → Out → Prop where
  | next {s t : State} (h : R s t) : Alike R (.next s) (.next t)
  | fault (f : Fault) : Alike R (.fault f) (.fault f)
  | refused (r : Refusal) : Alike R (.refused r) (.refused r)

/-! ### What an operand gives depends on the view only -/

theorem SameView.cell {s t : State} (h : SameView s t) (a : Word) : t.cell a = s.cell a := cell_of_mem_eq h.mem a

theorem SameView.memFetch {s t : State} (h : SameView s t) (a : Word) : memFetch a t = memFetch a s := by
  rw [Machine.memFetch, Machine.memFetch, h.cell]

theorem SameView.memRead {s t : State} (h : SameView s t) (a : Word) : memRead a t = memRead a s := by
  rw [Machine.memRead, Machine.memRead, h.cell]

theorem SameView.val {s t : State} (h : SameView s t) (m : Mode) (k : Word) : val m k t = val m k s := by
  cases m with
  | immediate => rfl
  | register => simp only [Machine.val, h.reg]
  | registerIndirect => simp only [Machine.val, h.reg, h.memRead]
  | memory => exact h.memRead k

theorem SameView.locOf {s t : State} (h : SameView s t) (l : LocMode) (k : Word) : locOf l k t = locOf l k s := by
  cases l <;> simp only [Machine.locOf, h.reg]

theorem SameView.locRead {s t : State} (h : SameView s t) (l : LocMode) (k : Word) : locRead l k t = locRead l k s := by
  simp only [Machine.locRead, h.locOf, Loc.read, h.reg, h.memRead]

/-! ### Each operation answers alike -/

section
variable {R : State → State → Prop} (hR : Hides R) {s t : State}

theorem Alike.orFault {α : Type} (x : Except Fault α) {f g : α → Out} (h : ∀ a, Alike R (f a) (g a)) :
    Alike R (orFault x f) (orFault x g) := by
  cases x with
  | ok a => exact h a
  | error e => exact .fault e

include hR

theorem Hides.fallThrough (h : R s t) : Alike R (fallThrough s) (fallThrough t) := by
  rw [Machine.fallThrough, Machine.fallThrough, State.advance, State.advance, (hR.view h).pc]
  exact .next (hR.setPc h _)

theorem Hides.onLocation (h : R s t) (m : Mode) {f g : LocMode → Out} (hfg : ∀ l, Alike R (f l) (g l)) :
    Alike R (onLocation m s f) (onLocation m t g) := by
  cases m with
  | immediate => exact hR.fallThrough h
  | register => exact hfg .register
  | registerIndirect => exact hfg .registerIndirect
  | memory => exact hfg .memory

theorem Hides.onRegister (h : R s t) (m : Mode) (k : Word) {f g : Reg → Out} (hfg : ∀ r, Alike R (f r) (g r)) :
    Alike R (onRegister m k s f) (onRegister m k t g) := by
  by_cases hm : m = .register
  · subst hm; exact .orFault _ hfg
  · rw [onRegister_other hm, onRegister_other hm]; exact hR.fallThrough h

theorem Hides.orFault_val (h : R s t) (m : Mode) (k : Word) {f g : Word → Out} (hfg : ∀ v, Alike R (f v) (g v)) :
    Alike R (Machine.orFault (val m k s) f) (Machine.orFault (val m k t) g) := by
  rw [(hR.view h).val]
  exact .orFault _ hfg

theorem Hides.orFault_locRead (h : R s t) (l : LocMode) (k : Word) {f g : Word → Out} (hfg : ∀ v, Alike R (f v) (g v)) :
    Alike R (Machine.orFault (locRead l k s) f) (Machine.orFault (locRead l k t) g) := by
  rw [(hR.view h).locRead]
  exact .orFault _ hfg

theorem Hides.write (h : R s t) (p : Loc) (v : Word) : R (p.write v s) (p.write v t) := by
  cases p with
  | reg r => exact hR.setReg h r v
  | cell a => exact hR.memWrite h a v

/-- Write a location, update the state by `f` and fall through. -/
theorem Hides.orFault_locWrite (h : R s t) (l : LocMode) (k v : Word) {f : State → State}
    (hf : ∀ {s t}, R s t → R (f s) (f t)) :
    Alike R (Machine.orFault (locWrite l k v s) fun u => Machine.fallThrough (f u))
      (Machine.orFault (locWrite l k v t) fun u => Machine.fallThrough (f u)) := by
  unfold locWrite
  rw [(hR.view h).locOf]
  cases locOf l k s with
  | ok p => exact hR.fallThrough (hf (hR.write h p v))
  | error e => exact .fault e

theorem Hides.accumulateArith (h : R s t) (raw : Int) : Alike R (accumulateArith raw s) (accumulateArith raw t) :=
  hR.fallThrough (hR.setArithFlags (hR.setReg h _ _) _)

theorem Hides.accumulateLogic (h : R s t) (r : Word) : Alike R (accumulateLogic r s) (accumulateLogic r t) :=
  hR.fallThrough (hR.setLogicFlags (hR.setReg h _ _) _)

theorem Hides.modifyArith (h : R s t) (m : Mode) (k : Word) (raw : Word → Int) :
    Alike R (modifyArith m k raw s) (modifyArith m k raw t) :=
  hR.onLocation h m fun l => hR.orFault_locRead h l k fun _ =>
    hR.orFault_locWrite h l k _ fun hu => hR.setArithFlags hu _

theorem Hides.jumpIf (h : R s t) (c : Bool) (m : Mode) (k : Word) : Alike R (jumpIf c m k s) (jumpIf c m k t) :=
  hR.orFault_val h m k fun v => by
    cases c with
    | true => exact .next (hR.setPc h v)
    | false => exact hR.fallThrough h

theorem Hides.pushOrStop (h : R s t) (v : Word) : Alike R (pushOrStop v s) (pushOrStop v t) := by
  have hroom : t.hasRoom = s.hasRoom := by rw [State.hasRoom, State.hasRoom, (hR.view h).params, (hR.view h).stk]
  unfold Machine.pushOrStop
  rw [hroom]
  cases s.hasRoom with
  | true => exact hR.fallThrough (hR.push h v)
  | false => exact .refused _

theorem Hides.execPop (h : R s t) (m : Mode) (k : Word) : Alike R (execPop m k s) (execPop m k t) :=
  hR.onRegister h m k fun r => by
    unfold Machine.pop
    rw [(hR.view h).stk]
    cases s.stk.getLast? with
    | none => exact .fault _
    | some v => exact hR.fallThrough (hR.setReg (hR.popTo h _) r v)

theorem Hides.execRead (h : R s t) (m : Mode) (k : Word) : Alike R (execRead m k s) (execRead m k t) :=
  hR.onLocation h m fun l => by
    unfold Machine.charIn
    rw [(hR.view h).cin]
    cases s.cin with
    | nil => exact .next h
    | cons c rest => exact hR.orFault_locWrite (hR.charIn h rest) l k c (f := id) id

/-- Related states execute every instruction alike. -/
theorem Hides.exec (h : R s t) (i : Instr) : Alike R (exec i s) (exec i t) := by
  have hv := hR.view h
  have hA : t.reg .A = s.reg .A := hv.reg .A
  cases i with
  | halt m k => exact .next (hR.halt h)
  | nop m k => exact hR.fallThrough h
  | load m k => exact hR.orFault_val h m k fun v => hR.fallThrough (hR.setReg h .A v)
  | store m k =>
    simp only [Machine.exec, execStore, hA]
    exact hR.onLocation h m fun l => hR.orFault_locWrite h l k _ (f := id) id
  | add m k => simp only [Machine.exec, execAdd, hA]; exact hR.orFault_val h m k fun v => hR.accumulateArith h _
  | sub m k => simp only [Machine.exec, execSub, hA]; exact hR.orFault_val h m k fun v => hR.accumulateArith h _
  | inc m k => exact hR.modifyArith h m k incRaw
  | dec m k => exact hR.modifyArith h m k decRaw
  | cmp m k =>
    simp only [Machine.exec, execCmp, hA]
    exact hR.orFault_val h m k fun v => hR.fallThrough (hR.setArithFlags h _)
  | xor m k => simp only [Machine.exec, execXor, hA]; exact hR.orFault_val h m k fun v => hR.accumulateLogic h _
  | and m k => simp only [Machine.exec, execAnd, hA]; exact hR.orFault_val h m k fun v => hR.accumulateLogic h _
  | or m k => simp only [Machine.exec, execOr, hA]; exact hR.orFault_val h m k fun v => hR.accumulateLogic h _
  | not m k =>
    exact hR.onLocation h m fun l => hR.orFault_locRead h l k fun _ =>
      hR.orFault_locWrite h l k _ fun hu => hR.setLogicFlags hu _
  | shl m k =>
    simp only [Machine.exec, execShl, hv.reg]
    exact hR.onRegister h m k fun r => hR.fallThrough (hR.setArithFlags (hR.setReg h r _) _)
  | shr m k =>
    simp only [Machine.exec, execShr, hv.reg]
    exact hR.onRegister h m k fun r => hR.fallThrough (hR.setLogicFlags (hR.setReg h r _) _)
  | push m k => simp only [Machine.exec, execPush, hv.reg]; exact hR.onRegister h m k fun r => hR.pushOrStop h _
  | pop m k => exact hR.execPop h m k
  | jmp m k => exact hR.orFault_val h m k fun v => .next (hR.setPc h v)
  | jz m k => simp only [Machine.exec, execJz, hv.zf]; exact hR.jumpIf h _ m k
  | jnz m k => simp only [Machine.exec, execJnz, hv.zf]; exact hR.jumpIf h _ m k
  | jc m k => simp only [Machine.exec, execJc, hv.cf]; exact hR.jumpIf h _ m k
  | jnc m k => simp only [Machine.exec, execJnc, hv.cf]; exact hR.jumpIf h _ m k
  | ja m k => simp only [Machine.exec, execJa, hv.cf, hv.zf]; exact hR.jumpIf h _ m k
  | jae m k => simp only [Machine.exec, execJae, hv.cf]; exact hR.jumpIf h _ m k
  | jb m k => simp only [Machine.exec, execJb, hv.cf]; exact hR.jumpIf h _ m k
  | jbe m k => simp only [Machine.exec, execJbe, hv.cf, hv.zf]; exact hR.jumpIf h _ m k
  | read m k => exact hR.execRead h m k
  | print m k => exact hR.orFault_val h m k fun v => hR.fallThrough (hR.charOut h v)

/-- Related states step alike: they are in the same run state and fetch the same word. -/
theorem Hides.step (h : R s t) : Alike R (step s) (step t) := by
  have hv := hR.view h
  unfold Machine.step
  rw [hv.run, hv.pc, hv.memFetch]
  cases s.run with
  | running =>
    refine .orFault _ fun w => ?_
    cases decode w with
    | ok i => exact hR.exec h i
    | error e => exact .fault _
  | halted => exact .refused _
  | faulted f => exact .refused _

end

/-! ### The two hidden fields -/

theorem Alike.transfer {R : State → State → Prop} {x y : Out} (h : Alike R x y) :
    (∀ t, x = .next t → ∃ u, y = .next u ∧ R t u) ∧ (∀ f, x = .fault f → y = .fault f) ∧
      (∀ r, x = .refused r → y = .refused r) := by
  cases h with
  | next h => exact ⟨by rintro _ ⟨⟩; exact ⟨_, rfl, h⟩, nofun, nofun⟩
  | fault f => exact ⟨nofun, fun _ => id, nofun⟩
  | refused r => exact ⟨nofun, nofun, fun _ => id⟩

/-- `t` is `s` with another `sp`. -/
def SameButSp (s t : State) : Prop := ∃ y, t = { s with sp := y }

theorem hides_sp : Hides SameButSp where
  view := by rintro s _ ⟨y, rfl⟩; exact ⟨rfl, fun q => by cases q <;> rfl, rfl, rfl, rfl, rfl, rfl, rfl, rfl⟩
  setReg := by rintro s _ ⟨y, rfl⟩ r v; exact ⟨y, by cases r <;> rfl⟩
  memWrite := by rintro s _ ⟨y, rfl⟩ a v; exact ⟨y, rfl⟩
  setPc := by rintro s _ ⟨y, rfl⟩ v; exact ⟨y, rfl⟩
  setArithFlags := by rintro s _ ⟨y, rfl⟩ x; exact ⟨y, rfl⟩
  setLogicFlags := by rintro s _ ⟨y, rfl⟩ v; exact ⟨y, rfl⟩
  push := by rintro s _ ⟨y, rfl⟩ v; exact ⟨y - 2#16, rfl⟩
  popTo := by rintro s _ ⟨y, rfl⟩ rest; exact ⟨y + 2#16, rfl⟩
  charIn := by rintro s _ ⟨y, rfl⟩ rest; exact ⟨y, rfl⟩
  charOut := by rintro s _ ⟨y, rfl⟩ v; exact ⟨y, rfl⟩
  halt := by rintro s _ ⟨y, rfl⟩; exact ⟨y, rfl⟩

/-- Settles O57: `sp` is written by pushes and pops, and read only to be written. -/
theorem stackPointerIsUnobservable : Obligations.StackPointerIsUnobservable := by
  intro s x
  obtain ⟨hnext, hfault, hrefused⟩ := (hides_sp.step (t := { s with sp := x }) ⟨x, rfl⟩).transfer
  refine ⟨fun t ht => ?_, hfault, hrefused⟩
  obtain ⟨_, hu, y, rfl⟩ := hnext t ht
  exact ⟨y, hu⟩

/-- `t` is `s` with another SF. -/
def SameButSf (s t : State) : Prop := ∃ c, t = { s with sf := c }

theorem hides_sf : Hides SameButSf where
  view := by rintro s _ ⟨c, rfl⟩; exact ⟨rfl, fun q => by cases q <;> rfl, rfl, rfl, rfl, rfl, rfl, rfl, rfl⟩
  setReg := by rintro s _ ⟨c, rfl⟩ r v; exact ⟨c, by cases r <;> rfl⟩
  memWrite := by rintro s _ ⟨c, rfl⟩ a v; exact ⟨c, rfl⟩
  setPc := by rintro s _ ⟨c, rfl⟩ v; exact ⟨c, rfl⟩
  setArithFlags := by rintro s _ ⟨c, rfl⟩ x; exact ⟨x.sf, rfl⟩
  setLogicFlags := by rintro s _ ⟨c, rfl⟩ v; exact ⟨logicSf v, rfl⟩
  push := by rintro s _ ⟨c, rfl⟩ v; exact ⟨c, rfl⟩
  popTo := by rintro s _ ⟨c, rfl⟩ rest; exact ⟨c, rfl⟩
  charIn := by rintro s _ ⟨c, rfl⟩ rest; exact ⟨c, rfl⟩
  charOut := by rintro s _ ⟨c, rfl⟩ v; exact ⟨c, rfl⟩
  halt := by rintro s _ ⟨c, rfl⟩; exact ⟨c, rfl⟩

/-- Settles O58: SF is overwritten or kept, and no condition reads it. -/
theorem signFlagIsNeverRead : Obligations.SignFlagIsNeverRead := by
  intro s b
  obtain ⟨hnext, hfault, hrefused⟩ := (hides_sf.step (t := { s with sf := b }) ⟨b, rfl⟩).transfer
  refine ⟨fun t ht => ?_, hfault, hrefused⟩
  obtain ⟨_, hu, c, rfl⟩ := hnext t ht
  exact ⟨c, hu⟩

end Sys2Proof.Machine
end

section
/-! PROOFS. The operand primitives and the step, as equations (40_execution_cycle.md R120, R124 to R129, 20_memory.md R56). -/

namespace Sys2Proof.Machine

/-! ### Data reads and operand values -/

theorem memRead_of_absent {a : Word} {s : State} (h : s.cell a = none) :
    memRead a s = .error (.uninitializedMemoryAccess a) := by
  simp [memRead, h]

theorem memRead_of_wide {a : Word} {s : State} {w : InstrWord} (h : s.cell a = some w) (hw : 65535 < w.toNat) :
    memRead a s = .error (.wideDataRead a) := by
  simp [memRead, h, hw]

theorem memRead_of_narrow {a : Word} {s : State} {w : InstrWord} (h : s.cell a = some w) (hw : w.toNat ≤ 65535) :
    memRead a s = .ok (w.setWidth 16) := by
  simp [memRead, h, hw]

/-- A data read that faults names its own address, and the cell there says which fault it is (R56). -/
theorem memRead_error {a : Word} {s : State} {f : Fault} (h : memRead a s = .error f) :
    (f = .uninitializedMemoryAccess a ∧ s.cell a = none) ∨
    (f = .wideDataRead a ∧ ∃ w, s.cell a = some w ∧ 65535 < w.toNat) := by
  obtain ⟨hc, he⟩ | ⟨w, hc, hw, he⟩ | ⟨_, _, _, he⟩ := memRead_cases a s <;> rw [he] at h <;> cases h
  · exact .inl ⟨rfl, hc⟩
  · exact .inr ⟨rfl, w, hc, hw⟩

theorem regOf_of_reserved {k : Word} (h : namesRegister k = false) : regOf k = .error (.invalidRegister k) := by
  obtain ⟨hk, _⟩ | ⟨_, he⟩ := regOf_cases k
  · simp [hk] at h
  · exact he

theorem exists_regOf {k : Word} (h : namesRegister k = true) : ∃ r, regOf k = .ok r := by
  obtain ⟨_, hr⟩ | ⟨hk, _⟩ := regOf_cases k
  · exact hr
  · simp [hk] at h

theorem namesRegister_eq_false_iff (k : Word) : namesRegister k = false ↔ k.toNat = 0 ∨ 5 < k.toNat := by
  simp only [namesRegister, Bool.and_eq_false_iff, decide_eq_false_iff_not]
  omega

/-- Settles O13: an operand value is the operand, a register, or a data read at a register's or the operand's address. -/
theorem operandValueByMode : Obligations.OperandValueByMode := by
  refine ⟨⟨rfl, rfl, rfl, rfl, rfl⟩, fun k hk => regOf_of_reserved ((namesRegister_eq_false_iff k).mpr hk),
    fun k s => ⟨rfl, fun r hr => ⟨val_register hr s, val_registerIndirect hr s⟩, fun f hf => ?_, rfl, fun a f hf => ?_⟩⟩
  · exact ⟨regOf_error hf, val_register_of_error hf s, val_registerIndirect_of_error hf s⟩
  · exact (memRead_error hf).imp And.left And.left

/-- Settles O14: the three cases of `memRead`; the narrow value survives the cut to 16 bits. -/
theorem dataReadOfCell : Obligations.DataReadOfCell := by
  refine fun a s => ⟨memRead_of_absent, fun w => memRead_of_wide, fun w hc hw => ⟨_, memRead_of_narrow hc hw, ?_⟩⟩
  rw [BitVec.toNat_setWidth]
  omega

/-! ### The step -/

theorem step_of_not_running {s : State} (h : s.run ≠ .running) : step s = .refused (.noStep s.run) := by
  unfold step
  cases hr : s.run with
  | running => exact absurd hr h
  | halted => rfl
  | faulted f => rfl

theorem memFetch_of_cell {a : Word} {s : State} {w : InstrWord} (h : s.cell a = some w) : memFetch a s = .ok w := by
  simp [memFetch, h]

theorem memFetch_of_absent {a : Word} {s : State} (h : s.cell a = none) :
    memFetch a s = .error (.uninitializedMemoryAccess a) := by
  simp [memFetch, h]

theorem step_of_decode {s : State} {w : InstrWord} {i : Instr} (hr : s.run = .running) (hc : s.cell s.pc = some w)
    (hd : decode w = .ok i) : step s = exec i s := by
  simp [step, hr, memFetch_of_cell hc, hd]

theorem step_of_illegal {s : State} {w : InstrWord} {e : DecodeError} (hr : s.run = .running)
    (hc : s.cell s.pc = some w) (hd : decode w = .error e) : step s = .fault (.illegalOpcode s.pc w) := by
  simp [step, hr, memFetch_of_cell hc, hd, raise]

theorem step_of_absent {s : State} (hr : s.run = .running) (hc : s.cell s.pc = none) :
    step s = .fault (.uninitializedMemoryAccess s.pc) := by
  simp [step, hr, memFetch_of_absent hc]

/-- Settles O44: nothing stands around `exec`. -/
theorem stepRunsDecodedInstruction : Obligations.StepRunsDecodedInstruction :=
  fun _ _ _ => step_of_decode

/-- Settles O45: the step's three ways to answer without an instruction. -/
theorem stepFaultsWithoutInstruction : Obligations.StepFaultsWithoutInstruction :=
  fun _ => ⟨step_of_absent, fun _ hr hc ho => step_of_illegal hr hc (decode_eq_error_iff.mpr ⟨rfl, ho⟩),
    step_of_not_running⟩

/-! ### The silent no-op (R128) -/

theorem onLocation_of_unsupported {m : Mode} (h : ModeUse.location.supports m = false) (s : State) (f : LocMode → Out) :
    onLocation m s f = .next s.advance := by
  cases m with
  | immediate => rfl
  | register | registerIndirect | memory => cases h

theorem onRegister_of_unsupported {m : Mode} (h : ModeUse.registerOnly.supports m = false) (k : Word) (s : State)
    (f : Reg → Out) : onRegister m k s f = .next s.advance := by
  refine onRegister_other ?_ k s f
  rintro rfl
  cases h

/-- In a mode that its opcode does not support, an instruction only advances `pc`. -/
theorem exec_of_unsupported {i : Instr} (h : i.modeSupported = false) (s : State) : exec i s = .next s.advance := by
  cases i with
  | store m k | inc m k | dec m k | not m k | read m k => exact onLocation_of_unsupported h s _
  | shl m k | shr m k | push m k | pop m k => exact onRegister_of_unsupported h k s _
  | _ => cases h

/-- Settles O39: the two guards, of location and of register operands, let no other mode through. -/
theorem unsupportedModeIsSilentNoOp : Obligations.UnsupportedModeIsSilentNoOp :=
  fun _ s h => exec_of_unsupported h s

/-- Settles O35: NOP falls through. -/
theorem nopOnlyAdvances : Obligations.NopOnlyAdvances := fun _ _ _ => rfl

/-- Settles O34: only `run` is written, and a Halted machine has no step. -/
theorem haltEntersHalted : Obligations.HaltEntersHalted := by
  refine fun m k s => ⟨{ s with run := .halted }, rfl, rfl, fun q => ?_, ⟨rfl, rfl, rfl⟩, fun a => rfl, ⟨rfl, rfl⟩,
    ⟨rfl, rfl⟩, step_of_not_running nofun⟩
  cases q <;> rfl

end Sys2Proof.Machine
end

section
/-! PROOFS. What an instruction leaves unchanged, for each of the updates that end in the automatic advance: a register and
flags, flags alone, a location and flags (10_state.md R20, R25, R28). -/

namespace Sys2Proof.Machine

theorem reg_A (s : State) : s.reg .A = s.regA := rfl

/-- The register writers with a carry: `r` and the three flags, and nothing else. -/
theorem setReg_setArithFlags_frame (s : State) (r : Reg) (v : Word) (x : ArithResult) :
    RegsKeptBut r s ((s.setReg r v).setArithFlags x).advance ∧
    CellsKept s ((s.setReg r v).setArithFlags x).advance ∧
    StackKept s ((s.setReg r v).setArithFlags x).advance ∧
    PortsKept s ((s.setReg r v).setArithFlags x).advance ∧
    Advanced s ((s.setReg r v).setArithFlags x).advance :=
  ⟨fun q hq => by simp [setReg_reg_ne s hq], fun a => by simp, by simp [StackKept], by simp [PortsKept], by simp [Advanced]⟩

/-- The logic operations on a register: `r`, ZF and SF, and nothing else. -/
theorem setReg_setLogicFlags_frame (s : State) (r : Reg) (v w : Word) :
    RegsKeptBut r s ((s.setReg r v).setLogicFlags w).advance ∧
    CellsKept s ((s.setReg r v).setLogicFlags w).advance ∧
    StackKept s ((s.setReg r v).setLogicFlags w).advance ∧
    PortsKept s ((s.setReg r v).setLogicFlags w).advance ∧
    Advanced s ((s.setReg r v).setLogicFlags w).advance :=
  ⟨fun q hq => by simp [setReg_reg_ne s hq], fun a => by simp, by simp [StackKept], by simp [PortsKept], by simp [Advanced]⟩

/-- What a location holds is read from the registers and the cells. -/
theorem Loc.read_congr {s t : State} (hreg : ∀ q, t.reg q = s.reg q) (hcell : ∀ a, t.cell a = s.cell a) (p : Loc) :
    p.read t = p.read s := by
  cases p with
  | reg r => simp only [Loc.read, hreg]
  | cell a => simp only [Loc.read, memRead, hcell]

theorem WroteOnly.congr {p : Loc} {v : Word} {s t u : State} (h : WroteOnly p v s t) (hreg : ∀ q, u.reg q = t.reg q)
    (hcell : ∀ a, u.cell a = t.cell a) : WroteOnly p v s u := by
  obtain ⟨hread, hregs, hcells⟩ := h
  exact ⟨(p.read_congr hreg hcell).trans hread, fun q hq => (hreg q).trans (hregs q hq),
    fun a ha => (hcell a).trans (hcells a ha)⟩

theorem Loc.wroteOnly_write (p : Loc) (v : Word) (s : State) : WroteOnly p v s (p.write v s) := by
  obtain ⟨_, _, _, _, _, _, _, _, _, hregs, hcells⟩ := p.write_frame v s
  exact ⟨Loc.read_write p v s, hregs, hcells⟩

theorem Loc.stackKept_write (p : Loc) (v : Word) (s : State) : StackKept s (p.write v s) := by
  obtain ⟨_, _, hstk, hsp, _⟩ := p.write_frame v s
  exact ⟨hstk, hsp⟩

theorem Loc.portsKept_write (p : Loc) (v : Word) (s : State) : PortsKept s (p.write v s) := by
  obtain ⟨_, _, _, _, hcin, hcout, _⟩ := p.write_frame v s
  exact ⟨hcin, hcout⟩

theorem Loc.flagsKept_write (p : Loc) (v : Word) (s : State) : FlagsKept s (p.write v s) := by
  obtain ⟨_, _, _, _, _, _, hzf, hcf, hsf, _⟩ := p.write_frame v s
  exact ⟨hzf, hcf, hsf⟩

theorem Loc.advanced_write (p : Loc) (v : Word) (s : State) : Advanced s (p.write v s).advance := by
  obtain ⟨hpc, hrun, _⟩ := p.write_frame v s
  simp [Advanced, hpc, hrun]

/-! ### Instructions on a value operand -/

theorem execLoad_of_val {m : Mode} {k v : Word} {s : State} (h : val m k s = .ok v) :
    execLoad m k s = .next (s.setReg .A v).advance := by
  simp [execLoad, h, fallThrough]

/-- Settles O15: only A and `pc` are written. -/
theorem loadPutsOperandInA : Obligations.LoadPutsOperandInA := by
  intro m k s v hv
  refine ⟨_, execLoad_of_val hv, rfl, fun q hq => ?_, ?_, fun a => ?_, ?_, ?_, ?_⟩
  · simp [setReg_reg_ne s hq]
  · simp [FlagsKept]
  · simp
  · simp [StackKept]
  · simp [PortsKept]
  · simp [Advanced]

/-- Settles O38: the sink alone is written. -/
theorem printAppendsOneCharacter : Obligations.PrintAppendsOneCharacter := by
  intro m k s v hv
  refine ⟨(charOut v s).advance, ?_, rfl, rfl, fun q => ?_, ⟨rfl, rfl, rfl⟩, fun a => rfl, ⟨rfl, rfl⟩, ⟨rfl, rfl⟩⟩
  · simp [exec, execPrint, hv, fallThrough]
  · simp

end Sys2Proof.Machine
end

section
/-! PROOFS. The carry rule on each raw result (42_arithmetic.md R150 to R158, 43_logic_shift.md R176): what is stored and
which flags are set, first as facts about numbers, then as the meanings of the instructions. -/

namespace Sys2Proof.Machine

/-! ### The carry rule in numbers -/

/-- SF is bit 15 of what is stored (R152). -/
theorem arith_sf_iff_stored (raw : Int) : (arith raw).sf = true ↔ 32768 ≤ (arith raw).stored.toNat := by
  rw [arith_sf, ← stored_toNat]
  omega

theorem arith_stored_toNat (raw : Int) :
    ((arith raw).stored.toNat : Int) = (if 65535 < raw then raw - 65535 else raw) % 65536 := by
  rw [stored_toNat, arith_res]

theorem arith_cf_eq_false (raw : Int) : (arith raw).cf = false ↔ raw ≤ 65535 := by
  rw [Bool.eq_false_iff, ne_eq, arith_cf, not_lt]

theorem arith_zf_eq_false (raw : Int) : (arith raw).zf = false ↔ raw ≠ 0 := by
  rw [Bool.eq_false_iff, ne_eq, arith_zf]

theorem eq_zero_iff_toNat (v : Word) : v = 0#16 ↔ v.toNat = 0 := BitVec.toNat_inj.symm

section
variable (a v : Word)

theorem add_stored_of_le (h : a.toNat + v.toNat ≤ 65535) : (arith (addRaw a v)).stored.toNat = a.toNat + v.toNat := by
  have hst := arith_stored_toNat (addRaw a v)
  unfold addRaw at *
  omega

theorem add_stored_of_gt (h : 65535 < a.toNat + v.toNat) :
    (arith (addRaw a v)).stored.toNat = a.toNat + v.toNat - 65535 := by
  have hst := arith_stored_toNat (addRaw a v)
  unfold addRaw at *
  omega

theorem add_cf : (arith (addRaw a v)).cf = true ↔ 65535 < a.toNat + v.toNat := by
  rw [arith_cf, addRaw]
  omega

theorem add_cf_eq_false : (arith (addRaw a v)).cf = false ↔ a.toNat + v.toNat ≤ 65535 := by
  rw [arith_cf_eq_false, addRaw]
  omega

theorem add_zf : (arith (addRaw a v)).zf = true ↔ a = 0#16 ∧ v = 0#16 := by
  rw [arith_zf, addRaw, eq_zero_iff_toNat, eq_zero_iff_toNat]
  omega

theorem addRaw_comm : addRaw a v = addRaw v a := add_comm _ _

theorem sub_stored_of_lt (h : a.toNat < v.toNat) : (arith (subRaw a v)).stored.toNat = 65536 + a.toNat - v.toNat := by
  have hst := arith_stored_toNat (subRaw a v)
  unfold subRaw at *
  omega

theorem sub_stored_of_le (h : v.toNat ≤ a.toNat) (htop : ¬ (a.toNat = 65535 ∧ v.toNat = 0)) :
    (arith (subRaw a v)).stored.toNat = a.toNat - v.toNat + 1 := by
  have hst := arith_stored_toNat (subRaw a v)
  unfold subRaw at *
  omega

/-- The one result of SUB that exceeds 16 bits, 65536, is stored as 0 (D10). -/
theorem sub_stored_of_top (h : a.toNat = 65535 ∧ v.toNat = 0) : (arith (subRaw a v)).stored = 0#16 := by
  have hst := arith_stored_toNat (subRaw a v)
  rw [eq_zero_iff_toNat]
  unfold subRaw at *
  omega

theorem sub_cf : (arith (subRaw a v)).cf = true ↔ v.toNat ≤ a.toNat := by
  rw [arith_cf, subRaw]
  omega

theorem sub_cf_eq_false : (arith (subRaw a v)).cf = false ↔ a.toNat < v.toNat := by
  rw [arith_cf_eq_false, subRaw]
  omega

/-- The complement sum is never 0, so SUB and CMP never set ZF. -/
theorem sub_zf : (arith (subRaw a v)).zf = false := by
  have hv := v.isLt
  rw [arith_zf_eq_false, subRaw]
  omega

theorem inc_stored : (arith (incRaw v)).stored = if v = 0xFFFF#16 then 1#16 else v + 1#16 := by
  have hst := arith_stored_toNat (incRaw v)
  have hv := v.isLt
  unfold incRaw at *
  split <;> bv_omega

theorem inc_cf : (arith (incRaw v)).cf = true ↔ v = 0xFFFF#16 := by
  rw [arith_cf, incRaw]
  bv_omega

theorem inc_zf : (arith (incRaw v)).zf = false := by
  rw [arith_zf_eq_false, incRaw]
  omega

theorem inc_sf : (arith (incRaw v)).sf = true ↔ 32767 ≤ v.toNat ∧ v.toNat ≤ 65534 := by
  have hst := arith_stored_toNat (incRaw v)
  have hv := v.isLt
  rw [arith_sf_iff_stored]
  unfold incRaw at *
  omega

theorem dec_stored : (arith (decRaw v)).stored = v - 1#16 := by
  have hst := arith_stored_toNat (decRaw v)
  have hv := v.isLt
  unfold decRaw at *
  bv_omega

theorem dec_cf : (arith (decRaw v)).cf = false := by
  have hv := v.isLt
  rw [arith_cf_eq_false, decRaw]
  omega

theorem dec_zf : (arith (decRaw v)).zf = true ↔ v = 1#16 := by
  rw [arith_zf, decRaw]
  bv_omega

theorem dec_sf : (arith (decRaw v)).sf = true ↔ v.toNat = 0 ∨ 32769 ≤ v.toNat := by
  have hst := arith_stored_toNat (decRaw v)
  have hv := v.isLt
  rw [arith_sf_iff_stored]
  unfold decRaw at *
  omega

theorem shl_stored_of_lt (h : v.toNat < 32768) : (arith (shlRaw v)).stored.toNat = 2 * v.toNat := by
  have hst := arith_stored_toNat (shlRaw v)
  unfold shlRaw at *
  omega

theorem shl_stored_of_ge (h : 32768 ≤ v.toNat) : (arith (shlRaw v)).stored.toNat = 2 * v.toNat - 65535 := by
  have hst := arith_stored_toNat (shlRaw v)
  have hv := v.isLt
  unfold shlRaw at *
  omega

theorem shl_cf : (arith (shlRaw v)).cf = true ↔ 32768 ≤ v.toNat := by
  rw [arith_cf, shlRaw]
  omega

theorem shl_cf_eq_false : (arith (shlRaw v)).cf = false ↔ v.toNat < 32768 := by
  rw [arith_cf_eq_false, shlRaw]
  omega

theorem shl_zf : (arith (shlRaw v)).zf = true ↔ v = 0#16 := by
  rw [arith_zf, shlRaw, eq_zero_iff_toNat]
  omega

theorem rotateLeft_one_toNat : (v.rotateLeft 1).toNat = 2 * v.toNat % 65536 + v.toNat / 32768 := by
  have hv := v.isLt
  have hlow : v.toNat <<< 1 % 65536 = (v.toNat % 32768) <<< 1 := by simp only [Nat.shiftLeft_eq]; omega
  simp only [BitVec.toNat_rotateLeft, Nat.reduceMod, Nat.reduceSub, Nat.reducePow, Nat.shiftRight_eq_div_pow, hlow]
  rw [← Nat.shiftLeft_add_eq_or_of_lt (by omega), Nat.shiftLeft_eq]
  omega

/-- Taking 65535 instead of 65536 from the doubled value puts the bit shifted out back in at the bottom (R176). -/
theorem shl_stored : (arith (shlRaw v)).stored = v.rotateLeft 1 := by
  have hv := v.isLt
  apply BitVec.eq_of_toNat_eq
  rw [rotateLeft_one_toNat]
  obtain h | h := Nat.lt_or_ge v.toNat 32768
  · rw [shl_stored_of_lt v h]; omega
  · rw [shl_stored_of_ge v h]; omega

end

/-! ### Instructions on A -/

theorem execAdd_of_val {m : Mode} {k v : Word} {s : State} (h : val m k s = .ok v) :
    execAdd m k s =
      .next ((s.setReg .A (arith (addRaw s.regA v)).stored).setArithFlags (arith (addRaw s.regA v))).advance := by
  simp [execAdd, h, accumulateArith, fallThrough, reg_A]

theorem execSub_of_val {m : Mode} {k v : Word} {s : State} (h : val m k s = .ok v) :
    execSub m k s =
      .next ((s.setReg .A (arith (subRaw s.regA v)).stored).setArithFlags (arith (subRaw s.regA v))).advance := by
  simp [execSub, h, accumulateArith, fallThrough, reg_A]

theorem execCmp_of_val {m : Mode} {k v : Word} {s : State} (h : val m k s = .ok v) :
    execCmp m k s = .next (s.setArithFlags (arith (subRaw s.regA v))).advance := by
  simp [execCmp, h, fallThrough, reg_A]

/-- Settles O18: the two cases of the carry rule on A + v. -/
theorem addResultAndFlags : Obligations.AddResultAndFlags := fun _ _ s v hv =>
  ⟨_, execAdd_of_val hv, fun h => ⟨add_stored_of_le s.regA v h, (add_cf_eq_false s.regA v).mpr h⟩,
    fun h => ⟨add_stored_of_gt s.regA v h, (add_cf s.regA v).mpr h⟩, add_zf s.regA v, arith_sf_iff_stored _,
    setReg_setArithFlags_frame s .A _ _⟩

/-- Settles O19: without a carry, with one, and the one sum whose result is 65536. -/
theorem subResultAndFlags : Obligations.SubResultAndFlags := fun _ _ s v hv =>
  ⟨_, execSub_of_val hv, fun h => ⟨sub_stored_of_lt s.regA v h, (sub_cf_eq_false s.regA v).mpr h⟩,
    fun h htop => ⟨sub_stored_of_le s.regA v h htop, (sub_cf s.regA v).mpr h⟩,
    fun h => ⟨sub_stored_of_top s.regA v h, (sub_cf s.regA v).mpr (by omega)⟩, sub_zf s.regA v, arith_sf_iff_stored _,
    setReg_setArithFlags_frame s .A _ _⟩

/-- Settles O20: the flags are SUB's, and SF is bit 15 of what SUB would store. -/
theorem cmpWritesSubFlagsOnly : Obligations.CmpWritesSubFlagsOnly := by
  intro m k s v hv
  have hsf := arith_sf_iff_stored (subRaw s.regA v)
  refine ⟨_, execCmp_of_val hv, sub_cf s.regA v, sub_zf s.regA v, fun h => ?lt, fun h htop => ?le, fun h => ?top,
    fun q => ?_, fun a => rfl, ⟨rfl, rfl⟩, ⟨rfl, rfl⟩, ⟨rfl, rfl⟩⟩
  case lt => rw [← sub_stored_of_lt s.regA v h]; exact hsf
  case le => rw [← sub_stored_of_le s.regA v h htop]; exact hsf
  case top =>
    rw [sub_stored_of_top s.regA v h] at hsf
    exact Bool.eq_false_iff.mpr (mt hsf.mp (by decide))
  · simp

/-- What an ADD that answers a next state added. -/
theorem execAdd_next {m : Mode} {k : Word} {s t : State} (h : execAdd m k s = .next t) :
    ∃ v, val m k s = .ok v ∧
      t = ((s.setReg .A (arith (addRaw s.regA v)).stored).setArithFlags (arith (addRaw s.regA v))).advance := by
  obtain ⟨v, hv, h⟩ := orFault_next h
  exact ⟨v, hv, fallThrough_next h⟩

/-- Settles O23: the raw sum is commutative, and a sum above 65535 leaves at least 1. -/
theorem addCarryNeverGivesZero : Obligations.AddCarryNeverGivesZero := by
  constructor
  · intro m n j k s u t x hu hs ht hx
    rw [exec, execAdd_of_val hu] at ht
    rw [exec, execAdd_of_val hs, addRaw_comm] at hx
    cases ht
    cases hx
    exact ⟨rfl, rfl, rfl, rfl⟩
  · intro m k s t h hcf
    obtain ⟨v, -, rfl⟩ := execAdd_next h
    have hgt := (add_cf s.regA v).mp hcf
    have hst := add_stored_of_gt s.regA v hgt
    refine ⟨Bool.eq_false_iff.mpr fun hz => ?_, fun hz => ?_⟩
    · obtain ⟨ha, hv⟩ := (add_zf s.regA v).mp hz
      simp [ha, hv] at hgt
    · have hzero : (arith (addRaw s.regA v)).stored.toNat = 0 := (eq_zero_iff_toNat _).mp hz
      omega

/-- The frame and flags that XOR, AND and OR share. -/
theorem logicEffect_of_accumulateLogic (r : Word) (s : State) :
    ∃ t, accumulateLogic r s = .next t ∧ LogicEffect r s t := by
  obtain ⟨hregs, hframe⟩ := setReg_setLogicFlags_frame s .A r r
  exact ⟨_, rfl, rfl, hregs, logicZf_iff r, logicSf_iff r, rfl, hframe⟩

/-- Settles O24: the three differ in the result only. -/
theorem logicResultAndFlags : Obligations.LogicResultAndFlags := by
  intro m k s v hv
  simp only [exec, execXor, execAnd, execOr, hv, orFault_ok]
  exact ⟨logicEffect_of_accumulateLogic _ s, logicEffect_of_accumulateLogic _ s, logicEffect_of_accumulateLogic _ s⟩

/-! ### Instructions on a location -/

theorem onLocation_of_locMode {m : Mode} {l : LocMode} (h : locMode m = some l) (s : State) (f : LocMode → Out) :
    onLocation m s f = f l := by
  simp [onLocation, h]

section
variable {m : Mode} {l : LocMode} {k v : Word} {s : State} {p : Loc}

theorem execStore_of_locOf (hl : locMode m = some l) (hp : locOf l k s = .ok p) :
    execStore m k s = .next (p.write s.regA s).advance := by
  simp [execStore, onLocation_of_locMode hl, locWrite_of_locOf hp, fallThrough, reg_A]

theorem modifyArith_of_read (hl : locMode m = some l) (hp : locOf l k s = .ok p) (hv : p.read s = .ok v)
    (raw : Word → Int) :
    modifyArith m k raw s = .next ((p.write (arith (raw v)).stored s).setArithFlags (arith (raw v))).advance := by
  simp [modifyArith, onLocation_of_locMode hl, locRead_of_locOf hp, locWrite_of_locOf hp, hv, fallThrough]

theorem execNot_of_read (hl : locMode m = some l) (hp : locOf l k s = .ok p) (hv : p.read s = .ok v) :
    execNot m k s = .next ((p.write (not16 v) s).setLogicFlags (not16 v)).advance := by
  simp [execNot, onLocation_of_locMode hl, locRead_of_locOf hp, locWrite_of_locOf hp, hv, fallThrough]

end

/-- Settles O16: a location's write, then the advance. -/
theorem storeWritesAToLocation : Obligations.StoreWritesAToLocation := fun _ _ _ s p hl hp =>
  ⟨_, execStore_of_locOf hl hp, (p.wroteOnly_write s.regA s).congr (by simp) (by simp), p.flagsKept_write s.regA s,
    p.stackKept_write s.regA s, p.portsKept_write s.regA s, p.advanced_write s.regA s⟩

/-- Settles O21: the carry rule on v + 1, which only 65535 exceeds. -/
theorem incResultAndFlags : Obligations.IncResultAndFlags := fun _ _ _ s p v hl hp hv =>
  ⟨_, modifyArith_of_read hl hp hv incRaw,
    inc_stored v ▸ (p.wroteOnly_write (arith (incRaw v)).stored s).congr (by simp) (by simp),
    inc_cf v, inc_zf v, inc_sf v, p.stackKept_write _ s, p.portsKept_write _ s, p.advanced_write _ s⟩

/-- Settles O22: v - 1 never exceeds 65535, and only 0 is taken below 0. -/
theorem decResultAndFlags : Obligations.DecResultAndFlags := fun _ _ _ s p v hl hp hv =>
  ⟨_, modifyArith_of_read hl hp hv decRaw,
    dec_stored v ▸ (p.wroteOnly_write (arith (decRaw v)).stored s).congr (by simp) (by simp),
    dec_cf v, dec_zf v, dec_sf v, p.stackKept_write _ s, p.portsKept_write _ s, p.advanced_write _ s⟩

theorem not16_zf (v : Word) : logicZf (not16 v) = true ↔ v.toNat = 65535 := by
  have hv := v.isLt
  rw [logicZf_iff, eq_zero_iff_toNat, not16_toNat]
  omega

theorem not16_sf (v : Word) : logicSf (not16 v) = true ↔ v.toNat < 32768 := by
  rw [logicSf_iff, not16_toNat]
  omega

/-- Settles O25: ZF and SF are those of 65535 - v. -/
theorem notResultAndFlags : Obligations.NotResultAndFlags := by
  intro m l k s p v hl hp hv
  obtain ⟨_, hcf, _⟩ := p.flagsKept_write (not16 v) s
  exact ⟨_, execNot_of_read hl hp hv,
    ⟨not16 v, not16_toNat v, (p.wroteOnly_write (not16 v) s).congr (by simp) (by simp)⟩,
    not16_zf v, not16_sf v, hcf, p.stackKept_write _ s, p.portsKept_write _ s, p.advanced_write _ s⟩

/-- Settles O17: the stored cell holds A zero-extended, which reads as A; no other cell changed. -/
theorem storeThenLoadReturnsValue : Obligations.StoreThenLoadReturnsValue := by
  intro k s t u ht hu
  rw [exec, execStore_of_locOf (m := .memory) (k := k) (s := s) rfl rfl] at ht
  cases ht
  constructor
  · have hread : val .memory k u = .ok s.regA := memRead_of_cell (by simp [hu, Loc.write, memWrite_cell])
    exact ⟨_, execLoad_of_val hread, rfl⟩
  · intro a v ha hv
    exact (memRead_memWrite_ne ha s.regA s).trans hv

/-- Settles O54: the cell holds A zero-extended, whose opcode field is 0. -/
theorem storedCellIsNotExecutable : Obligations.StoredCellIsNotExecutable := by
  intro m l k x s t u hl hp ht hr hpc hu
  rw [exec, execStore_of_locOf hl hp] at ht
  cases ht
  have hcell : u.cell u.pc = some (s.regA.setWidth 24) := by simp [hpc, hu, Loc.write, memWrite_cell]
  rw [step_of_illegal hr hcell (decode_setWidth s.regA), hpc]

/-! ### Shifts -/

theorem execShl_of_regOf {k : Word} {r : Reg} (h : regOf k = .ok r) (s : State) :
    execShl .register k s =
      .next ((s.setReg r (arith (shlRaw (s.reg r))).stored).setArithFlags (arith (shlRaw (s.reg r)))).advance := by
  simp [execShl, h, fallThrough]

theorem execShr_of_regOf {k : Word} {r : Reg} (h : regOf k = .ok r) (s : State) :
    execShr .register k s = .next ((s.setReg r (half (s.reg r))).setLogicFlags (half (s.reg r))).advance := by
  simp [execShr, h, fallThrough]

/-- Settles O26: the two cases of the carry rule on twice the value, both a rotation. -/
theorem shlResultAndFlags : Obligations.ShlResultAndFlags := by
  intro k s r hr
  refine ⟨_, execShl_of_regOf hr s, ?_⟩
  have hreg : (((s.setReg r (arith (shlRaw (s.reg r))).stored).setArithFlags (arith (shlRaw (s.reg r)))).advance).reg r =
      (arith (shlRaw (s.reg r))).stored := by simp
  rw [hreg]
  exact ⟨fun h => ⟨shl_stored_of_lt _ h, (shl_cf_eq_false _).mpr h⟩, fun h => ⟨shl_stored_of_ge _ h, (shl_cf _).mpr h⟩,
    shl_stored _, shl_zf _, arith_sf_iff_stored _, setReg_setArithFlags_frame s r _ _⟩

theorem half_zf (v : Word) : logicZf (half v) = true ↔ v.toNat ≤ 1 := by
  rw [logicZf_iff, eq_zero_iff_toNat, half_toNat]
  omega

theorem half_sf (v : Word) : logicSf (half v) = false := by
  have hv := v.isLt
  rw [Bool.eq_false_iff, ne_eq, logicSf_iff, half_toNat]
  omega

/-- Settles O27: half of a 16-bit value is below 32768. -/
theorem shrResultAndFlags : Obligations.ShrResultAndFlags := by
  intro k s r hr
  exact ⟨_, execShr_of_regOf hr s, by simp [half_toNat], half_zf _, half_sf _, by simp, setReg_setLogicFlags_frame s r _ _⟩

end Sys2Proof.Machine
end

section
/-! PROOFS. The stack instructions, the jumps and READ (44_stack.md R190, R191; 45_control_transfer.md R200 to R211;
46_system_io.md R222). -/

namespace Sys2Proof.Machine

/-! ### PUSH and POP -/

theorem execPush_of_room {k : Word} {s : State} {r : Reg} (hr : regOf k = .ok r) (hroom : s.hasRoom = true) :
    execPush .register k s = .next (push (s.reg r) s).advance := by
  simp [execPush, hr, pushOrStop, hroom, fallThrough]

theorem execPush_of_full {k : Word} {s : State} {r : Reg} (hr : regOf k = .ok r) (hfull : s.hasRoom = false) :
    execPush .register k s = .refused .stackDepthReached := by
  simp [execPush, hr, pushOrStop, hfull]

theorem hasRoom_eq_false_iff (s : State) :
    s.hasRoom = false ↔ ∃ d, s.params.stackDepth = some d ∧ d ≤ s.stk.length := by
  rw [Bool.eq_false_iff, ne_eq, hasRoom_iff]
  push Not
  rfl

theorem execPop_of_stk {k : Word} {s : State} {r : Reg} {rest : List Word} {v : Word} (hr : regOf k = .ok r)
    (hs : s.stk = rest ++ [v]) :
    execPop .register k s = .next (({ s with stk := rest, sp := s.sp + 2#16 }).setReg r v).advance := by
  simp [execPop, hr, pop, hs, fallThrough]

/-- Settles O28: the two answers of PUSH, told apart by `hasRoom`. -/
theorem pushAppendsRegister : Obligations.PushAppendsRegister := by
  refine fun k s r hr => ⟨fun hroom => ?_, fun d hd hle => ?_⟩
  · exact ⟨_, execPush_of_room hr ((hasRoom_iff s).mpr hroom), rfl, rfl, fun q => by simp, ⟨rfl, rfl, rfl⟩,
      fun a => rfl, ⟨rfl, rfl⟩, ⟨rfl, rfl⟩⟩
  · exact execPush_of_full hr ((hasRoom_eq_false_iff s).mpr ⟨d, hd, hle⟩)

/-- Settles O29: the stack ends in the popped value. -/
theorem popTakesTopOfStack : Obligations.PopTakesTopOfStack := by
  intro k s r rest v hr hs
  refine ⟨_, execPop_of_stk hr hs, by simp, by simp, by simp, fun q hq => ?reg, ?flags, fun a => ?cell, ?ports, ?pc⟩
  case reg => rw [advance_reg, setReg_reg_ne _ hq]; cases q <;> rfl
  case flags => simp [FlagsKept]
  case cell => simp [State.cell]
  case ports => simp [PortsKept]
  case pc => simp [Advanced]

/-- Settles O30: the PUSH left its value on top and `sp` 2 lower, and POP takes exactly that back. -/
theorem pushThenPopRestoresRegister : Obligations.PushThenPopRestoresRegister := by
  intro k s t u r hr ht hstk hsp
  obtain ⟨_, rfl⟩ : s.hasRoom = true ∧ t = (push (s.reg r) s).advance :=
    pushOrStop_next (by simpa [exec, execPush, hr] using ht)
  refine ⟨_, execPop_of_stk hr (hstk.trans (push_stk s (s.reg r))), by simp, by simp, ?_⟩
  simp [hsp]

/-! ### Jumps -/

theorem jumpIf_of_val {m : Mode} {k v : Word} {s : State} (h : val m k s = .ok v) (c : Bool) :
    jumpIf c m k s = .next { s with pc := if c then v else s.pc + 3#16 } := by
  cases c <;> simp [jumpIf, h] <;> rfl

/-- Settles O31: only `pc` is written. -/
theorem jmpSetsPcToTarget : Obligations.JmpSetsPcToTarget := by
  intro m k s v hv
  refine ⟨s.setPc v, by simp [exec, execJmp, hv, jumpTo], rfl, rfl, fun q => ?_, ⟨rfl, rfl, rfl⟩, fun a => rfl,
    ⟨rfl, rfl⟩, ⟨rfl, rfl⟩⟩
  simp

/-- A conditional jump with condition `c`. -/
theorem jumpIf_effect_of_val {m : Mode} {k v : Word} {s : State} (h : val m k s = .ok v) {c : Bool} {cond : Prop}
    (hc : c = true ↔ cond) : ∃ t, jumpIf c m k s = .next t ∧ JumpEffect cond v s t := by
  refine ⟨_, jumpIf_of_val h c, fun ht => ?taken, fun hn => ?not, rfl, fun q => ?reg, ⟨rfl, rfl, rfl⟩, fun a => rfl,
    ⟨rfl, rfl⟩, ⟨rfl, rfl⟩⟩
  case taken => exact if_pos (hc.mpr ht)
  case not => exact if_neg (mt hc.mp hn)
  case reg => cases q <;> rfl

/-- Settles O32: each is `jumpIf` on its condition. -/
theorem conditionalJumpsFollowFlags : Obligations.ConditionalJumpsFollowFlags := fun _ _ _ _ hv =>
  ⟨jumpIf_effect_of_val hv .rfl, jumpIf_effect_of_val hv (by simp), jumpIf_effect_of_val hv .rfl,
    jumpIf_effect_of_val hv (by simp), jumpIf_effect_of_val hv (by simp), jumpIf_effect_of_val hv (by simp),
    jumpIf_effect_of_val hv .rfl, jumpIf_effect_of_val hv (by simp)⟩

/-- The flags that the conditional jumps see after a CMP of A with `v`. -/
theorem execCmp_flags {m : Mode} {k v : Word} {s t : State} (hv : val m k s = .ok v) (h : execCmp m k s = .next t) :
    t.zf = false ∧ t.cf = decide (v.toNat ≤ s.regA.toNat) := by
  rw [execCmp_of_val hv] at h
  cases h
  refine ⟨sub_zf s.regA v, ?_⟩
  rw [Bool.eq_iff_iff, decide_eq_true_iff]
  exact sub_cf s.regA v

/-- Settles O33: ZF is clear and CF says `A ≥ v`, so each condition is a constant or one of the two comparisons. -/
theorem jumpsAfterCmp : Obligations.JumpsAfterCmp := by
  intro m n k j s t v g hv ht hg
  obtain ⟨hzf, hcf⟩ := execCmp_flags hv ht
  simp only [exec, execJz, execJnz, execJc, execJnc, execJa, execJae, execJb, execJbe, jumpIf_of_val hg, hzf, hcf]
  simp only [Bool.false_eq_true, Bool.not_false, Bool.and_true, Bool.or_false, Bool.not_eq_true', decide_eq_true_eq,
    decide_eq_false_iff_not, not_le, if_true, if_false, and_self]

/-! ### READ -/

theorem execRead_of_empty {m : Mode} {l : LocMode} (hl : locMode m = some l) (k : Word) {s : State} (hc : s.cin = []) :
    execRead m k s = .next s := by
  simp [execRead, onLocation_of_locMode hl, charIn, hc, awaitChar]

/-- Taking a character moves no location. -/
theorem locOf_of_cin (l : LocMode) (k : Word) (s : State) (cs : List Word) :
    locOf l k { s with cin := cs } = locOf l k s := by
  have hreg : ∀ q, State.reg { s with cin := cs } q = s.reg q := fun q => by cases q <;> rfl
  cases l <;> simp only [locOf, hreg]

theorem execRead_of_cons {m : Mode} {l : LocMode} {k c : Word} {s : State} {p : Loc} {rest : List Word}
    (hl : locMode m = some l) (hp : locOf l k s = .ok p) (hc : s.cin = c :: rest) :
    execRead m k s = .next (p.write c { s with cin := rest }).advance := by
  have hp' : locOf l k { s with cin := rest } = .ok p := (locOf_of_cin l k s rest).trans hp
  simp [execRead, onLocation_of_locMode hl, charIn, hc, locWrite_of_locOf hp', fallThrough]

/-- What a location's write does to a state whose source has changed. -/
theorem wroteOnly_of_cin {p : Loc} {v : Word} {s t : State} {cs : List Word} (h : WroteOnly p v { s with cin := cs } t) :
    WroteOnly p v s t := by
  obtain ⟨hread, hregs, hcells⟩ := h
  exact ⟨hread, fun q hq => (hregs q hq).trans (by cases q <;> rfl), hcells⟩

/-- Settles O36: the location is written in the state whose source has lost the character. -/
theorem readStoresOneCharacter : Obligations.ReadStoresOneCharacter := by
  intro m l k s p c rest hl hp hc
  obtain ⟨hin, hout⟩ := p.portsKept_write c { s with cin := rest }
  exact ⟨_, execRead_of_cons hl hp hc,
    wroteOnly_of_cin ((p.wroteOnly_write c { s with cin := rest }).congr (by simp) (by simp)), hin, hout,
    p.flagsKept_write c { s with cin := rest }, p.stackKept_write c { s with cin := rest },
    p.advanced_write c { s with cin := rest }⟩

theorem offer_of_le {n : Nat} (h : n ≤ 65535) (s : State) :
    s.offer n = some { s with cin := s.cin ++ [BitVec.ofNat 16 n] } := if_pos h

/-- Settles O37: the delivered code is the only one in the source, and READ takes it. -/
theorem readWaitsThenCompletes : Obligations.ReadWaitsThenCompletes := by
  intro m l k s hl hcin
  refine ⟨execRead_of_empty hl k hcin, fun p c hp hc => ?_⟩
  have hpu : locOf l k { s with cin := s.cin ++ [BitVec.ofNat 16 c] } = .ok p := (locOf_of_cin l k s _).trans hp
  obtain ⟨t, ht, ⟨hread, _⟩, hin, _, _, _, hpc, _⟩ :=
    readStoresOneCharacter m l k _ p (BitVec.ofNat 16 c) [] hl hpu (by simp [hcin])
  exact ⟨_, t, _, offer_of_le hc s, ht, by rw [BitVec.toNat_ofNat]; omega, hread, hin, hpc⟩

end Sys2Proof.Machine
end

section
/-! PROOFS. What the state can be after an instruction, written out (`Answer`): which updates it took, and what the
instruction was for each. What an instruction leaves alone (10_state.md R25, R28, R30; 20_memory.md R57) is read off it. -/

namespace Sys2Proof.Machine

/-- Every state that instruction `i` can answer from `s`. -/
inductive Answer (i : Instr) (s : State) : State → Prop where
  | advanced : Answer i s s.advance
  | loaded (v : Word) : Answer i s (s.setReg .A v).advance
  | computed (hi : writesCf i = true) (r : Reg) (v : Word) (x : ArithResult) :
      Answer i s ((s.setReg r v).setArithFlags x).advance
  | compared (hi : writesCf i = true) (x : ArithResult) : Answer i s (s.setArithFlags x).advance
  | combined (hi : writesZfSf i = true) (r : Reg) (v w : Word) : Answer i s ((s.setReg r v).setLogicFlags w).advance
  | stored (hi : i.modeUse = .location) {l : LocMode} (hl : locMode i.mode = some l) {p : Loc}
      (hp : locOf l i.operand s = .ok p) (v : Word) : Answer i s (p.write v s).advance
  | counted (hi : writesCf i = true) (hu : i.modeUse = .location) {l : LocMode} (hl : locMode i.mode = some l) {p : Loc}
      (hp : locOf l i.operand s = .ok p) (v : Word) (x : ArithResult) :
      Answer i s ((p.write v s).setArithFlags x).advance
  | complemented (hi : writesZfSf i = true) (hu : i.modeUse = .location) {l : LocMode} (hl : locMode i.mode = some l)
      {p : Loc} (hp : locOf l i.operand s = .ok p) (v w : Word) : Answer i s ((p.write v s).setLogicFlags w).advance
  | pushed (v : Word) : Answer i s (push v s).advance
  | popped (rest : List Word) (r : Reg) (v : Word) :
      Answer i s (({ s with stk := rest, sp := s.sp + 2#16 }).setReg r v).advance
  | jumped (hi : isJump i = true) {v : Word} (hv : val i.mode i.operand s = .ok v) : Answer i s (s.setPc v)
  | waited (hi : isWaitingRead i s = true) : Answer i s s
  | received (hi : i.modeUse = .location) {l : LocMode} (hl : locMode i.mode = some l) {p : Loc}
      (hp : locOf l i.operand s = .ok p) (c : Word) (rest : List Word) :
      Answer i s (p.write c { s with cin := rest }).advance
  | printed (v : Word) : Answer i s (charOut v s).advance
  | halted (hi : isHalt i = true) : Answer i s { s with run := .halted }

/-! ### Inversion of the shared forms -/

/-- Write a location, update the state by `f` and fall through. -/
theorem orFault_locWrite_next {l : LocMode} {k v : Word} {f : State → State} {s t : State}
    (h : orFault (locWrite l k v s) (fun u => fallThrough (f u)) = .next t) :
    ∃ p, locOf l k s = .ok p ∧ t = (f (p.write v s)).advance := by
  obtain ⟨u, hu, h⟩ := orFault_next h
  obtain ⟨p, hp, rfl⟩ := locWrite_ok hu
  exact ⟨p, hp, fallThrough_next h⟩

theorem modifyArith_next {m : Mode} {k : Word} {raw : Word → Int} {s t : State} (h : modifyArith m k raw s = .next t) :
    t = s.advance ∨ ∃ l p v, locMode m = some l ∧ locOf l k s = .ok p ∧
      t = ((p.write (arith (raw v)).stored s).setArithFlags (arith (raw v))).advance := by
  refine (onLocation_next h).imp And.right ?_
  rintro ⟨l, hl, h⟩
  obtain ⟨v, _, h⟩ := orFault_next h
  obtain ⟨p, hp, rfl⟩ := orFault_locWrite_next h
  exact ⟨l, p, v, hl, hp, rfl⟩

theorem jumpIf_next {c : Bool} {m : Mode} {k : Word} {s t : State} (h : jumpIf c m k s = .next t) :
    t = s.advance ∨ ∃ v, val m k s = .ok v ∧ t = s.setPc v := by
  obtain ⟨v, hv, h⟩ := orFault_next h
  cases c with
  | true => exact .inr ⟨v, hv, jumpTo_next h⟩
  | false => exact .inl (fallThrough_next h)

section
variable {i : Instr} {m : Mode} {k : Word} {s t : State}

theorem answer_of_accumulateArith (hi : writesCf i = true) {raw : Word → Int}
    (h : orFault (val m k s) (fun v => accumulateArith (raw v) s) = .next t) : Answer i s t := by
  obtain ⟨v, _, h⟩ := orFault_next h
  cases fallThrough_next h
  exact .computed hi _ _ _

theorem answer_of_accumulateLogic (hi : writesZfSf i = true) {f : Word → Word}
    (h : orFault (val m k s) (fun v => accumulateLogic (f v) s) = .next t) : Answer i s t := by
  obtain ⟨v, _, h⟩ := orFault_next h
  cases fallThrough_next h
  exact .combined hi _ _ _

theorem answer_of_modifyArith (hi : writesCf i = true) (hu : i.modeUse = .location)
    {raw : Word → Int} (h : modifyArith i.mode i.operand raw s = .next t) : Answer i s t := by
  obtain rfl | ⟨l, p, v, hl, hp, rfl⟩ := modifyArith_next h
  · exact .advanced
  · exact .counted hi hu hl hp _ _

theorem answer_of_jumpIf (hi : isJump i = true) {c : Bool}
    (h : jumpIf c i.mode i.operand s = .next t) : Answer i s t := by
  obtain rfl | ⟨v, hv, rfl⟩ := jumpIf_next h
  · exact .advanced
  · exact .jumped hi hv

end

theorem execStore_answer {m : Mode} {k : Word} {s t : State} (h : execStore m k s = .next t) :
    Answer (.store m k) s t := by
  obtain ⟨_, rfl⟩ | ⟨l, hl, h⟩ := onLocation_next h
  · exact .advanced
  · obtain ⟨p, hp, rfl⟩ := orFault_locWrite_next (f := id) h
    exact .stored (i := .store m k) rfl hl hp _

theorem execNot_answer {m : Mode} {k : Word} {s t : State} (h : execNot m k s = .next t) :
    Answer (.not m k) s t := by
  obtain ⟨_, rfl⟩ | ⟨l, hl, h⟩ := onLocation_next h
  · exact .advanced
  · obtain ⟨v, _, h⟩ := orFault_next h
    obtain ⟨p, hp, rfl⟩ := orFault_locWrite_next h
    exact .complemented (i := .not m k) rfl rfl hl hp _ _

theorem isWaitingRead_read {m : Mode} {l : LocMode} (hl : locMode m = some l) (k : Word) {s : State} (hc : s.cin = []) :
    isWaitingRead (.read m k) s = true := by
  cases m with
  | immediate => cases hl
  | register | registerIndirect | memory => simp [isWaitingRead, takesCharacter, hc]

theorem execRead_answer {m : Mode} {k : Word} {s t : State} (h : execRead m k s = .next t) :
    Answer (.read m k) s t := by
  obtain ⟨_, rfl⟩ | ⟨l, hl, h⟩ := onLocation_next h
  · exact .advanced
  · obtain ⟨hc, he⟩ | ⟨c, rest, _, he⟩ := charIn_cases s <;> rw [he] at h
    · cases awaitChar_next h
      exact .waited (isWaitingRead_read hl k hc)
    · obtain ⟨p, hp, rfl⟩ := orFault_locWrite_next (f := id) h
      exact .received (i := .read m k) rfl hl ((locOf_of_cin l k s rest).symm.trans hp) _ _

theorem execShl_answer {m : Mode} {k : Word} {s t : State} (h : execShl m k s = .next t) : Answer (.shl m k) s t := by
  obtain ⟨_, rfl⟩ | ⟨_, r, _, h⟩ := onRegister_next h
  · exact .advanced
  · cases fallThrough_next h
    exact .computed rfl r _ _

theorem execShr_answer {m : Mode} {k : Word} {s t : State} (h : execShr m k s = .next t) : Answer (.shr m k) s t := by
  obtain ⟨_, rfl⟩ | ⟨_, r, _, h⟩ := onRegister_next h
  · exact .advanced
  · cases fallThrough_next h
    exact .combined rfl r _ _

theorem execPush_answer {m : Mode} {k : Word} {s t : State} (h : execPush m k s = .next t) :
    Answer (.push m k) s t := by
  obtain ⟨_, rfl⟩ | ⟨_, r, _, h⟩ := onRegister_next h
  · exact .advanced
  · obtain ⟨_, rfl⟩ := pushOrStop_next h
    exact .pushed _

theorem execPop_answer {m : Mode} {k : Word} {s t : State} (h : execPop m k s = .next t) : Answer (.pop m k) s t := by
  obtain ⟨_, rfl⟩ | ⟨_, r, _, h⟩ := onRegister_next h
  · exact .advanced
  · obtain ⟨p, hp, h⟩ := orFault_next h
    cases fallThrough_next h
    obtain ⟨_, he⟩ | ⟨rest, v, _, he⟩ := pop_cases s <;> rw [he] at hp <;> cases hp
    exact .popped rest r v

/-- Says once what an instruction can do. -/
theorem exec_answer {i : Instr} {s t : State} (h : exec i s = .next t) : Answer i s t := by
  cases i with
  | halt m k => cases h; exact .halted rfl
  | nop m k => cases fallThrough_next h; exact .advanced
  | load m k => obtain ⟨v, _, h⟩ := orFault_next h; cases fallThrough_next h; exact .loaded v
  | store m k => exact execStore_answer h
  | add m k => exact answer_of_accumulateArith rfl h
  | sub m k => exact answer_of_accumulateArith rfl h
  | inc m k => exact answer_of_modifyArith rfl rfl h
  | dec m k => exact answer_of_modifyArith rfl rfl h
  | cmp m k => obtain ⟨v, _, h⟩ := orFault_next h; cases fallThrough_next h; exact .compared rfl _
  | xor m k => exact answer_of_accumulateLogic rfl h
  | and m k => exact answer_of_accumulateLogic rfl h
  | or m k => exact answer_of_accumulateLogic rfl h
  | not m k => exact execNot_answer h
  | shl m k => exact execShl_answer h
  | shr m k => exact execShr_answer h
  | push m k => exact execPush_answer h
  | pop m k => exact execPop_answer h
  | jmp m k => obtain ⟨v, hv, h⟩ := orFault_next h; cases jumpTo_next h; exact .jumped rfl hv
  | jz m k | jnz m k | jc m k | jnc m k | ja m k | jae m k | jb m k | jbe m k => exact answer_of_jumpIf rfl h
  | read m k => exact execRead_answer h
  | print m k => obtain ⟨v, _, h⟩ := orFault_next h; cases fallThrough_next h; exact .printed v

/-! ### What an instruction leaves alone -/

section
variable (p : Loc) (v : Word) (s : State)

@[simp] theorem Loc.write_pc : (p.write v s).pc = s.pc := (p.write_frame v s).1
@[simp] theorem Loc.write_run : (p.write v s).run = s.run := (p.write_frame v s).2.1
@[simp] theorem Loc.write_zf : (p.write v s).zf = s.zf := (p.flagsKept_write v s).1
@[simp] theorem Loc.write_cf : (p.write v s).cf = s.cf := (p.flagsKept_write v s).2.1
@[simp] theorem Loc.write_sf : (p.write v s).sf = s.sf := (p.flagsKept_write v s).2.2

end

/-- A cell that a location's write changed is that location. -/
theorem Loc.eq_cell_of_write {p : Loc} {v x : Word} {s : State} (h : (p.write v s).cell x ≠ s.cell x) : p = .cell x := by
  obtain ⟨_, _, hcells⟩ := p.wroteOnly_write v s
  exact not_imp_comm.mp (hcells x) h

/-- The operand of `i` is a location operand, and the location it names is the cell `x`. -/
def NamesCell (i : Instr) (s : State) (x : Word) : Prop :=
  i.modeUse = .location ∧ ∃ l, locMode i.mode = some l ∧ locOf l i.operand s = .ok (.cell x)

theorem namesCell_of_write {i : Instr} {s u : State} {l : LocMode} {p : Loc} {v x : Word} (hu : i.modeUse = .location)
    (hl : locMode i.mode = some l) (hp : locOf l i.operand s = .ok p) (hx : (p.write v u).cell x ≠ u.cell x) :
    NamesCell i s x :=
  ⟨hu, l, hl, Loc.eq_cell_of_write hx ▸ hp⟩

section
variable {i : Instr} {s t : State}

/-- The automatic advance, and the three exceptions (R25). -/
theorem Answer.pc (h : Answer i s t) :
    t.pc = s.pc + 3#16 ∨ (isJump i = true ∧ val i.mode i.operand s = .ok t.pc) ∨ isWaitingRead i s = true ∨
      isHalt i = true := by
  cases h with
  | jumped hi hv => exact .inr (.inl ⟨hi, hv⟩)
  | waited hi => exact .inr (.inr (.inl hi))
  | halted hi => exact .inr (.inr (.inr hi))
  | _ => exact .inl (by simp)

/-- Only HALT leaves Running (R30). -/
theorem Answer.run (h : Answer i s t) (hi : isHalt i = false) : t.run = s.run := by
  cases h with
  | halted hh => simp [hi] at hh
  | _ => simp

theorem writesZfSf_of_writesCf (h : writesCf i = true) : writesZfSf i = true := by
  cases i with
  | add | sub | inc | dec | cmp | shl => rfl
  | _ => cases h

theorem Answer.cf (h : Answer i s t) (hi : writesCf i = false) : t.cf = s.cf := by
  cases h with
  | computed hw | compared hw | counted hw => simp [hi] at hw
  | _ => simp

theorem Answer.zf_sf (h : Answer i s t) (hi : writesZfSf i = false) : t.zf = s.zf ∧ t.sf = s.sf := by
  cases h with
  | computed hw | compared hw | counted hw => simp [writesZfSf_of_writesCf hw] at hi
  | combined hw | complemented hw => simp [hi] at hw
  | _ => simp

/-- A changed cell is the one that a location operand names (R57). -/
theorem Answer.namesCell {x : Word} (h : Answer i s t) (hx : t.cell x ≠ s.cell x) : NamesCell i s x := by
  cases h with
  | stored hu hl hp v => exact namesCell_of_write hu hl hp (by simpa using hx)
  | counted _ hu hl hp v y => exact namesCell_of_write hu hl hp (by simpa using hx)
  | complemented _ hu hl hp v w => exact namesCell_of_write hu hl hp (by simpa using hx)
  | received hu hl hp c rest => exact namesCell_of_write (u := { s with cin := rest }) hu hl hp hx
  | popped => exact absurd (by simp [State.cell]) hx
  | halted => exact absurd rfl hx
  | _ => exact absurd (by simp) hx

/-- HALT, a jump and a waiting READ are three different instructions. -/
theorem isJump_eq_false_of_isHalt (h : isHalt i = true) : isJump i = false := by
  cases i with
  | halt => rfl
  | _ => cases h

theorem isJump_eq_false_of_isWaitingRead (h : isWaitingRead i s = true) : isJump i = false := by
  cases i with
  | read => rfl
  | _ => cases h

end

theorem run_of_isHalt {i : Instr} {s t : State} (hi : isHalt i = true) (h : exec i s = .next t) : t.run = .halted := by
  cases i with
  | halt => cases h; rfl
  | _ => cases hi

/-- Settles O48: the advance is the rule, and each exception to it is one of three kinds of instruction. -/
theorem execMovesPcByThree : Obligations.ExecMovesPcByThree := by
  intro i s t h
  have hpc := (exec_answer h).pc
  refine ⟨fun hh hj hw => ?_, fun hj => ?_, fun hh => run_of_isHalt hh h, (exec_answer h).run⟩
  · simpa [hh, hj, hw] using hpc
  · have hh : isHalt i ≠ true := fun hh => by simp [isJump_eq_false_of_isHalt hh] at hj
    have hw : isWaitingRead i s ≠ true := fun hw => by simp [isJump_eq_false_of_isWaitingRead hw] at hj
    tauto

/-- Settles O49: read off the possible answers. -/
theorem onlyListedInstructionsWriteFlags : Obligations.OnlyListedInstructionsWriteFlags :=
  fun _ _ _ h => ⟨(exec_answer h).cf, (exec_answer h).zf_sf⟩

/-- Settles O50: of the possible answers, four write a location, and each names it. -/
theorem memoryChangesOnlyAtNamedLocation : Obligations.MemoryChangesOnlyAtNamedLocation :=
  fun _ _ _ _ h => (exec_answer h).namesCell

end Sys2Proof.Machine
end

section
/-! PROOFS. Faults and refusals (60_exceptions.md R240 to R247, 40_execution_cycle.md R129): which operand fault an instruction
raises, that a location written but not read raises InvalidRegister only, and where a step is refused. -/

namespace Sys2Proof.Machine

/-! ### Operand faults are raised -/

/-- An instruction with a value operand reads it first (R129). -/
theorem exec_of_val_error {i : Instr} {s : State} {f : Fault} (hu : i.modeUse = .value)
    (h : val i.mode i.operand s = .error f) : exec i s = .fault f := by
  have hfault : ∀ g : Word → Out, orFault (val i.mode i.operand s) g = .fault f := fun g => by rw [h, orFault_error]
  cases i with
  | load | add | sub | cmp | xor | and | or | jmp | jz | jnz | jc | jnc | ja | jae | jb | jbe | print => exact hfault _
  | _ => cases hu

theorem exec_of_locRead_error {i : Instr} {s : State} {f : Fault} {l : LocMode} (hi : modifiesLocation i = true)
    (hl : locMode i.mode = some l) (h : locRead l i.operand s = .error f) : exec i s = .fault f := by
  have hfault : ∀ g : LocMode → Word → Out,
      (onLocation i.mode s fun l => orFault (locRead l i.operand s) (g l)) = .fault f :=
    fun g => by rw [onLocation_of_locMode hl, h, orFault_error]
  cases i with
  | inc | dec | not => exact hfault _
  | _ => cases hi

theorem locWrite_of_locOf_error {l : LocMode} {k : Word} {s : State} {f : Fault} (h : locOf l k s = .error f) (v : Word) :
    locWrite l k v s = .error f := by
  simp [locWrite, h]

theorem execStore_of_locOf_error {m : Mode} {l : LocMode} {k : Word} {s : State} {f : Fault} (hl : locMode m = some l)
    (h : locOf l k s = .error f) : execStore m k s = .fault f := by
  rw [execStore, onLocation_of_locMode hl, locWrite_of_locOf_error h, orFault_error]

/-- READ's operand is looked at once a character is there (D19). -/
theorem execRead_of_locOf_error {m : Mode} {l : LocMode} {k c : Word} {s : State} {f : Fault} {rest : List Word}
    (hl : locMode m = some l) (h : locOf l k s = .error f) (hc : s.cin = c :: rest) : execRead m k s = .fault f := by
  have h' : locOf l k { s with cin := rest } = .error f := (locOf_of_cin l k s rest).trans h
  simp [execRead, onLocation_of_locMode hl, charIn, hc, locWrite_of_locOf_error h']

/-- Settles O40: the operand is looked at before anything is written. -/
theorem operandFaultsAreRaised : Obligations.OperandFaultsAreRaised :=
  fun _ _ _ => ⟨exec_of_val_error, fun _ => exec_of_locRead_error, fun _ _ _ => execStore_of_locOf_error,
    fun _ _ _ _ _ => execRead_of_locOf_error⟩

/-! ### Which operand faults there are -/

/-- A value operand that faults names no register, or the data read faults (R124, R125). -/
theorem val_error {m : Mode} {k : Word} {s : State} {f : Fault} (h : val m k s = .error f) :
    ((m = .register ∨ m = .registerIndirect) ∧ namesRegister k = false ∧ f = .invalidRegister k) ∨
    ((m = .registerIndirect ∨ m = .memory) ∧ ∃ a, memRead a s = .error f) := by
  cases m with
  | immediate => cases h
  | memory => exact .inr ⟨.inr rfl, k, h⟩
  | register =>
    obtain ⟨_, r, hr⟩ | ⟨hk, hr⟩ := regOf_cases k
    · rw [val_register hr] at h; cases h
    · rw [val_register_of_error hr] at h; cases h; exact .inl ⟨.inl rfl, hk, rfl⟩
  | registerIndirect =>
    obtain ⟨_, r, hr⟩ | ⟨hk, hr⟩ := regOf_cases k
    · rw [val_registerIndirect hr] at h; exact .inr ⟨.inl rfl, _, h⟩
    · rw [val_registerIndirect_of_error hr] at h; cases h; exact .inl ⟨.inr rfl, hk, rfl⟩

theorem val_error_invalidRegister {m : Mode} {k j : Word} {s : State} (h : val m k s = .error (.invalidRegister j)) :
    (m = .register ∨ m = .registerIndirect) ∧ namesRegister k = false ∧ j = k := by
  obtain ⟨hm, hk, hf⟩ | ⟨_, a, ha⟩ := val_error h
  · exact ⟨hm, hk, by cases hf; rfl⟩
  · obtain ⟨hf, _⟩ | ⟨hf, _⟩ := memRead_error ha <;> cases hf

theorem val_error_uninitialized {m : Mode} {k a : Word} {s : State}
    (h : val m k s = .error (.uninitializedMemoryAccess a)) :
    s.cell a = none ∧ (m = .registerIndirect ∨ m = .memory) := by
  obtain ⟨_, _, hf⟩ | ⟨hm, b, hb⟩ := val_error h
  · cases hf
  · obtain ⟨hf, hc⟩ | ⟨hf, _⟩ := memRead_error hb <;> cases hf
    exact ⟨hc, hm⟩

theorem val_error_wide {m : Mode} {k a : Word} {s : State} (h : val m k s = .error (.wideDataRead a)) :
    (∃ w, s.cell a = some w ∧ 65535 < w.toNat) ∧ (m = .registerIndirect ∨ m = .memory) := by
  obtain ⟨_, _, hf⟩ | ⟨hm, b, hb⟩ := val_error h
  · cases hf
  · obtain ⟨hf, _⟩ | ⟨hf, hc⟩ := memRead_error hb <;> cases hf
    exact ⟨hc, hm⟩

theorem val_ne_illegalOpcode {m : Mode} {k p : Word} {w : InstrWord} {s : State} :
    val m k s ≠ .error (.illegalOpcode p w) := by
  intro h
  obtain ⟨_, _, hf⟩ | ⟨_, a, ha⟩ := val_error h
  · cases hf
  · obtain ⟨hf, _⟩ | ⟨hf, _⟩ := memRead_error ha <;> cases hf

/-! ### InvalidRegister -/

/-- A register identifier that names no register, in either mode that takes one. -/
theorem val_of_reserved {m : Mode} {k : Word} (hm : m = .register ∨ m = .registerIndirect)
    (hk : namesRegister k = false) (s : State) : val m k s = .error (.invalidRegister k) := by
  obtain rfl | rfl := hm
  · exact val_register_of_error (regOf_of_reserved hk) s
  · exact val_registerIndirect_of_error (regOf_of_reserved hk) s

theorem locOf_of_reserved {m : Mode} {k : Word} (hm : m = .register ∨ m = .registerIndirect)
    (hk : namesRegister k = false) (s : State) :
    ∃ l, locMode m = some l ∧ locOf l k s = .error (.invalidRegister k) := by
  obtain rfl | rfl := hm
  · exact ⟨_, rfl, by simp [locOf, regOf_of_reserved hk]⟩
  · exact ⟨_, rfl, by simp [locOf, regOf_of_reserved hk]⟩

theorem locRead_of_locOf_error {l : LocMode} {k : Word} {s : State} {f : Fault} (h : locOf l k s = .error f) :
    locRead l k s = .error f := by
  simp [locRead, h]

/-- A register operand is used as an identifier in the supported modes 1 and 2 (R93). -/
theorem usesRegisterId_iff (i : Instr) :
    i.usesRegisterId = true ↔ i.modeSupported = true ∧ i.modeUse ≠ .ignored ∧
      (i.mode = .register ∨ i.mode = .registerIndirect) := by
  simp [Instr.usesRegisterId, and_assoc]

theorem exec_of_isWaitingRead {i : Instr} {s : State} (h : isWaitingRead i s = true) : exec i s = .next s := by
  cases i with
  | read m k =>
    simp only [isWaitingRead, takesCharacter, Bool.and_eq_true, bne_iff_ne, List.isEmpty_iff] at h
    obtain ⟨hm, hc⟩ := h
    cases m with
    | immediate => exact absurd rfl hm
    | register | registerIndirect | memory => exact execRead_of_empty rfl k hc
  | _ => cases h

/-- HALT and NOP look at no operand. -/
theorem exec_ne_fault_of_ignored {i : Instr} (h : i.modeUse = .ignored) (s : State) (f : Fault) : exec i s ≠ .fault f := by
  cases i with
  | halt | nop => nofun
  | _ => cases h

/-- A reserved identifier is found out by every instruction that uses one, unless it waits (R246). -/
theorem exec_of_reserved {i : Instr} {s : State} (hs : i.modeSupported = true) (hi : i.modeUse ≠ .ignored)
    (hm : i.mode = .register ∨ i.mode = .registerIndirect) (hk : namesRegister i.operand = false)
    (hw : isWaitingRead i s = false) : exec i s = .fault (.invalidRegister i.operand) := by
  obtain ⟨l, hl, hloc⟩ := locOf_of_reserved hm hk s
  have hregister : ∀ f : Reg → Out, i.mode = .register →
      onRegister i.mode i.operand s f = .fault (.invalidRegister i.operand) := fun f he =>
     by rw [he, onRegister_register, regOf_of_reserved hk, orFault_error]
  have hmode : i.modeUse = .registerOnly → i.mode = .register := fun hu => by
    rw [Instr.modeSupported, hu] at hs
    obtain he | he := hm
    · exact he
    · rw [he] at hs; cases hs
  cases i with
  | halt | nop => exact absurd rfl hi
  | store m k => exact execStore_of_locOf_error hl hloc
  | read m k =>
    cases hc : s.cin with
    | nil => simp [isWaitingRead_read (m := m) hl k hc] at hw
    | cons c rest => exact execRead_of_locOf_error hl hloc hc
  | inc | dec | not => exact exec_of_locRead_error rfl hl (locRead_of_locOf_error hloc)
  | shl | shr | push | pop => exact hregister _ (hmode rfl)
  | _ => exact exec_of_val_error rfl (val_of_reserved hm hk s)

/-- Settles O41: the fault is the operand's (`exec_fault`), and an instruction that is unsupported, ignores its operand or
waits raises none. -/
theorem invalidRegisterExactly : Obligations.InvalidRegisterExactly := by
  intro i s k
  rw [usesRegisterId_iff]
  constructor
  · intro h
    obtain hv | ⟨_, _, _, _, hf⟩ := exec_fault h
    · obtain ⟨hm, hk, rfl⟩ := val_error_invalidRegister hv
      refine ⟨rfl, ⟨?_, fun hi => exec_ne_fault_of_ignored hi s _ h, hm⟩, hk, ?_⟩
      · by_contra hs
        rw [exec_of_unsupported (by simpa using hs)] at h
        cases h
      · by_contra hw
        rw [exec_of_isWaitingRead (by simpa using hw)] at h
        cases h
    · cases hf
  · rintro ⟨rfl, ⟨hs, hi, hm⟩, hk, hw⟩
    exact exec_of_reserved hs hi hm hk hw

/-! ### Faults of data reads -/

/-- A location that is only written raises no fault but InvalidRegister (20_memory.md R57). -/
theorem locWrite_error {l : LocMode} {k v : Word} {s : State} {f : Fault} (h : locWrite l k v s = .error f) :
    f = .invalidRegister k := by
  cases hp : locOf l k s with
  | ok p => rw [locWrite_of_locOf hp] at h; cases h
  | error e =>
    rw [locWrite_of_locOf_error hp] at h
    cases h
    cases l with
    | memory => cases hp
    | register | registerIndirect =>
      obtain ⟨_, r, hr⟩ | ⟨_, hr⟩ := regOf_cases k <;> simp only [locOf, hr] at hp <;> cases hp
      rfl

theorem execStore_fault_eq {m : Mode} {k : Word} {s : State} {f : Fault} (h : execStore m k s = .fault f) :
    f = .invalidRegister k := by
  obtain ⟨l, _, h⟩ := onLocation_fault h
  obtain h | ⟨_, _, h⟩ := orFault_fault h
  · exact locWrite_error h
  · cases h

theorem execRead_fault_eq {m : Mode} {k : Word} {s : State} {f : Fault} (h : execRead m k s = .fault f) :
    f = .invalidRegister k := by
  obtain ⟨l, _, h⟩ := onLocation_fault h
  obtain ⟨_, hc⟩ | ⟨c, rest, _, hc⟩ := charIn_cases s <;> rw [hc] at h
  · cases h
  · obtain h | ⟨_, _, h⟩ := orFault_fault h
    · exact locWrite_error h
    · cases h

/-- An instruction that faults otherwise than by InvalidRegister, in mode 2 or 3, reads its operand as a value. -/
theorem reads_of_exec_fault {i : Instr} {s : State} {f : Fault} (h : exec i s = .fault f)
    (hm : i.mode = .registerIndirect ∨ i.mode = .memory) (hf : ∀ k, f ≠ .invalidRegister k) :
    i.modeUse = .value ∨ modifiesLocation i = true := by
  have hsupported : i.modeSupported = true := by
    by_contra hs
    rw [exec_of_unsupported (by simpa using hs)] at h
    cases h
  have hmode : i.modeUse ≠ .registerOnly := fun hu => by
    rw [Instr.modeSupported, hu] at hsupported
    obtain he | he := hm <;> rw [he] at hsupported <;> cases hsupported
  cases i with
  | halt | nop => cases h
  | store => exact absurd (execStore_fault_eq h) (hf _)
  | read => exact absurd (execRead_fault_eq h) (hf _)
  | inc | dec | not => exact .inr rfl
  | shl | shr | push | pop => exact absurd rfl hmode
  | _ => exact .inl rfl

/-- Settles O43: a fault other than StackUnderflow is the operand's, and a data read says which cell it met. -/
theorem memoryFaultsOnlyFromReads : Obligations.MemoryFaultsOnlyFromReads := by
  refine fun i s => ⟨fun a h => ?absent, fun a h => ?wide, fun p w h => ?illegal⟩
  case absent =>
    obtain hv | ⟨_, _, _, _, hf⟩ := exec_fault h
    · obtain ⟨hc, hm⟩ := val_error_uninitialized hv
      exact ⟨hc, hm, reads_of_exec_fault h hm nofun⟩
    · cases hf
  case wide =>
    obtain hv | ⟨_, _, _, _, hf⟩ := exec_fault h
    · obtain ⟨hc, hm⟩ := val_error_wide hv
      exact ⟨hc, hm, reads_of_exec_fault h hm nofun⟩
    · cases hf
  case illegal =>
    obtain hv | ⟨_, _, _, _, hf⟩ := exec_fault h
    · exact val_ne_illegalOpcode hv
    · cases hf

/-! ### Refusals -/

theorem orFault_refused {α : Type} {x : Except Fault α} {f : α → Out} {r : Refusal} (h : orFault x f = .refused r) :
    ∃ a, x = .ok a ∧ f a = .refused r := by
  cases x with
  | ok a => exact ⟨a, rfl, h⟩
  | error e => cases h

theorem orFault_ne_refused {α : Type} (x : Except Fault α) {f : α → Out} {r : Refusal} (hf : ∀ a, f a ≠ .refused r) :
    orFault x f ≠ .refused r := by
  intro h
  obtain ⟨a, _, h⟩ := orFault_refused h
  exact hf a h

theorem onLocation_ne_refused (m : Mode) (s : State) {f : LocMode → Out} {r : Refusal} (hf : ∀ l, f l ≠ .refused r) :
    onLocation m s f ≠ .refused r := by
  cases m with
  | immediate => nofun
  | register => exact hf .register
  | registerIndirect => exact hf .registerIndirect
  | memory => exact hf .memory

theorem onRegister_refused {m : Mode} {k : Word} {s : State} {f : Reg → Out} {e : Refusal}
    (h : onRegister m k s f = .refused e) : m = .register ∧ ∃ r, regOf k = .ok r ∧ f r = .refused e := by
  by_cases hm : m = .register
  · subst hm; exact ⟨rfl, orFault_refused h⟩
  · rw [onRegister_other hm] at h; cases h

theorem onRegister_ne_refused (m : Mode) (k : Word) (s : State) {f : Reg → Out} {e : Refusal}
    (hf : ∀ r, f r ≠ .refused e) : onRegister m k s f ≠ .refused e := by
  intro h
  obtain ⟨_, r, _, h⟩ := onRegister_refused h
  exact hf r h

theorem jumpIf_ne_refused (c : Bool) (m : Mode) (k : Word) (s : State) (r : Refusal) : jumpIf c m k s ≠ .refused r :=
  orFault_ne_refused _ fun _ => by cases c <;> nofun

theorem modifyArith_ne_refused (m : Mode) (k : Word) (raw : Word → Int) (s : State) (r : Refusal) :
    modifyArith m k raw s ≠ .refused r :=
  onLocation_ne_refused m s fun _ => orFault_ne_refused _ fun _ => orFault_ne_refused _ fun _ => nofun

theorem execRead_ne_refused (m : Mode) (k : Word) (s : State) (r : Refusal) : execRead m k s ≠ .refused r :=
  onLocation_ne_refused m s fun _ => by
    obtain ⟨_, hc⟩ | ⟨_, _, _, hc⟩ := charIn_cases s <;> rw [hc]
    · nofun
    · exact orFault_ne_refused _ fun _ => nofun

theorem execPush_refused {m : Mode} {k : Word} {s : State} {e : Refusal} (h : execPush m k s = .refused e) :
    m = .register ∧ namesRegister k = true ∧ s.hasRoom = false ∧ e = .stackDepthReached := by
  obtain ⟨hm, r, hr, h⟩ := onRegister_refused h
  obtain ⟨_, he⟩ | ⟨hroom, he⟩ := pushOrStop_cases (s.reg r) s <;> rw [he] at h <;> cases h
  exact ⟨hm, namesRegister_of_regOf_ok hr, hroom, rfl⟩

/-- Only a PUSH on a full stack is refused (log 6). -/
theorem exec_refused_iff {i : Instr} {s : State} {r : Refusal} :
    exec i s = .refused r ↔
      r = .stackDepthReached ∧ ∃ k, i = .push .register k ∧ namesRegister k = true ∧ s.hasRoom = false := by
  constructor
  · intro h
    cases i with
    | push m k =>
      obtain ⟨rfl, hk, hroom, rfl⟩ := execPush_refused h
      exact ⟨rfl, k, rfl, hk, hroom⟩
    | halt | nop => cases h
    | load | add | sub | cmp | xor | and | or | jmp | print => exact absurd h (orFault_ne_refused _ fun _ => nofun)
    | jz | jnz | jc | jnc | ja | jae | jb | jbe => exact absurd h (jumpIf_ne_refused _ _ _ s r)
    | store => exact absurd h (onLocation_ne_refused _ s fun _ => orFault_ne_refused _ fun _ => nofun)
    | inc | dec => exact absurd h (modifyArith_ne_refused _ _ _ s r)
    | not =>
      exact absurd h
        (onLocation_ne_refused _ s fun _ => orFault_ne_refused _ fun _ => orFault_ne_refused _ fun _ => nofun)
    | read => exact absurd h (execRead_ne_refused _ _ s r)
    | shl | shr => exact absurd h (onRegister_ne_refused _ _ s fun _ => nofun)
    | pop => exact absurd h (onRegister_ne_refused _ _ s fun _ => orFault_ne_refused _ fun _ => nofun)
  · rintro ⟨rfl, k, rfl, hk, hroom⟩
    obtain ⟨r, hr⟩ := exists_regOf hk
    exact execPush_of_full hr hroom

/-- A refused step of a Running machine is a refused instruction. -/
theorem step_refused {s : State} {r : Refusal} (hr : s.run = .running) (h : step s = .refused r) :
    ∃ w i, s.cell s.pc = some w ∧ decode w = .ok i ∧ exec i s = .refused r := by
  cases hc : s.cell s.pc with
  | none => rw [step_of_absent hr hc] at h; cases h
  | some w =>
    cases hd : decode w with
    | error e => rw [step_of_illegal hr hc hd] at h; cases h
    | ok i => exact ⟨w, i, rfl, hd, step_of_decode hr hc hd ▸ h⟩

/-- Settles O46: fetch and dispatch refuse nothing, and `exec_refused_iff` says what an instruction refuses. -/
theorem runningStepIsRefusedOnlyAtStackDepth : Obligations.RunningStepIsRefusedOnlyAtStackDepth := by
  intro s hr
  have hiff : ∀ r, step s = .refused r ↔ r = .stackDepthReached ∧ ∃ d w k, s.params.stackDepth = some d ∧
      d ≤ s.stk.length ∧ s.cell s.pc = some w ∧ decode w = .ok (.push .register k) ∧ namesRegister k = true := by
    intro r
    constructor
    · intro h
      obtain ⟨w, i, hc, hi, he⟩ := step_refused hr h
      obtain ⟨rfl, k, rfl, hk, hroom⟩ := exec_refused_iff.mp he
      obtain ⟨d, hd, hle⟩ := (hasRoom_eq_false_iff s).mp hroom
      exact ⟨rfl, d, w, k, hd, hle, hc, hi, hk⟩
    · rintro ⟨hstop, d, w, k, hd, hle, hc, hi, hk⟩
      rw [step_of_decode hr hc hi]
      exact exec_refused_iff.mpr ⟨hstop, k, rfl, hk, (hasRoom_eq_false_iff s).mpr ⟨d, hd, hle⟩⟩
  refine ⟨fun hnone r h => ?_, hiff⟩
  obtain ⟨_, d, _, _, hd, _⟩ := (hiff r).mp h
  simp [hnone] at hd

/-! ### The end of a run by a fault -/

theorem run_of_step_fault {s : State} {f : Fault} (h : step s = .fault f) : s.run = .running := by
  by_contra hr
  rw [step_of_not_running hr] at h
  cases h

theorem runFor_of_fault {s : State} {f : Fault} (h : step s = .fault f) (n : Nat) :
    runFor (n + 1) s = .faulted f.name s.cout := by
  simp [runFor, h, State.ended]

theorem enterFaulted_cin (s : State) (f : Fault) :
    (s.enterFaulted f).cin = if s.fetched.any takesCharacter then s.cin.tail else s.cin := by
  rw [enterFaulted_eq]

/-- A READ that faults had a character to take: without one it waits. -/
theorem cin_ne_nil_of_fault {i : Instr} {s : State} {f : Fault} (h : exec i s = .fault f) (hi : takesCharacter i = true) :
    s.cin ≠ [] := by
  intro hc
  rw [exec_of_isWaitingRead (by simp [isWaitingRead, hi, hc])] at h
  cases h

theorem fetched_of_absent {s : State} (hc : s.cell s.pc = none) : s.fetched = none := by
  simp [State.fetched, memFetch_of_absent hc]

theorem fetched_of_illegal {s : State} {w : InstrWord} {e : DecodeError} (hc : s.cell s.pc = some w)
    (hd : decode w = .error e) : s.fetched = none := by
  simp [State.fetched, memFetch_of_cell hc, hd]

/-- Settles O47: the fault enters Faulted, which is an end, and only a READ, which had a character, takes one. -/
theorem faultEndsRunShowingNameAndOutput : Obligations.FaultEndsRunShowingNameAndOutput := by
  intro s f h
  have hr := run_of_step_fault h
  have hstop := step_of_not_running (s := s.enterFaulted f) (by simp)
  rw [enterFaulted_run] at hstop
  refine ⟨runFor_of_fault h, enterFaulted_run s f, enterFaulted_cout s f, hstop,
    fun w i hc hd => ⟨fun hi => ?took, fun hi => ?kept⟩, fun hc => ?absent, fun w e hc hd => ?illegal⟩
  case took =>
    rw [step_of_decode hr hc hd] at h
    obtain ⟨c, rest, hcin⟩ := List.exists_cons_of_ne_nil (cin_ne_nil_of_fault h hi)
    exact ⟨c, by simp [enterFaulted_cin, fetched_of_decode hc hd, hi, hcin]⟩
  case kept => simp [enterFaulted_cin, fetched_of_decode hc hd, hi]
  case absent => simp [enterFaulted_cin, fetched_of_absent hc]
  case illegal => simp [enterFaulted_cin, fetched_of_illegal hc hd]

end Sys2Proof.Machine
end

section
/-! PROOFS. The loader (70_reset_and_hazards.md R270 to R273, 30_encoding.md R88): word `n` of an image stands at address
`3n`, a line is read exactly when it is the text of a word, and so an image exactly when it is the text of its words. -/

namespace Sys2Proof.Machine

/-! ### Placing the words -/

theorem read_placeWords {base n : Nat} {ws : List InstrWord} (h : n < ws.length) :
    (placeWords base ws).read (base + 3 * n) = ws[n]? := by
  induction ws generalizing base n with
  | nil => cases h
  | cons w ws ih =>
    cases n with
    | zero => simp [placeWords, Memory.read_cons]
    | succ n =>
      have hne : base ≠ base + 3 * (n + 1) := by omega
      have hnext : base + 3 * (n + 1) = (base + 3) + 3 * n := by omega
      rw [placeWords, Memory.read_cons, if_neg hne, hnext, ih (Nat.lt_of_succ_lt_succ h), List.getElem?_cons_succ]

/-- The image base is 0. -/
theorem read_placeWords_zero {n : Nat} {ws : List InstrWord} (h : n < ws.length) :
    (placeWords 0 ws).read (3 * n) = ws[n]? := by
  simpa using read_placeWords (base := 0) h

theorem read_placeWords_of_ne {base a : Nat} {ws : List InstrWord} (h : ∀ n < ws.length, a ≠ base + 3 * n) :
    (placeWords base ws).read a = none := by
  induction ws generalizing base with
  | nil => rfl
  | cons w ws ih =>
    have hne : base ≠ a := fun he => h 0 (by simp) (by omega)
    rw [placeWords, Memory.read_cons, if_neg hne]
    refine ih fun n hn => ?_
    have := h (n + 1) (by simpa using hn)
    omega

theorem loadWords_of_le {ws : List InstrWord} (h : ws.length ≤ 21846) : loadWords ws = .ok (placeWords 0 ws) := if_pos h

theorem loadWords_of_gt {ws : List InstrWord} (h : 21846 < ws.length) : loadWords ws = .error .imageTooLong :=
  if_neg (Nat.not_le.mpr h)

theorem loadWords_eq_ok {ws : List InstrWord} {m : Memory} (h : loadWords ws = .ok m) : m = placeWords 0 ws := by
  obtain hle | hgt := Nat.lt_or_ge 21846 ws.length
  · rw [loadWords_of_gt hle] at h; cases h
  · rw [loadWords_of_le hgt] at h; cases h; rfl

/-- Settles O9: everything but the parameters, the source and the image is the reset value. -/
theorem resetWithImageLeavesSpecState : Obligations.ResetWithImageLeavesSpecState := by
  refine fun words s => ⟨fun hle => ?_, fun hgt => by simp [State.resetWith, loadWords_of_gt hgt]⟩
  refine ⟨resetState s.params (placeWords 0 words) s.cin, by simp [State.resetWith, loadWords_of_le hle],
    fun q => by cases q <;> rfl, rfl, rfl, rfl, rfl, rfl, rfl, rfl, rfl, rfl, rfl, fun n => read_placeWords_zero,
    fun a ha => read_placeWords_of_ne fun n hn => ?_⟩
  simpa using ha n hn

/-! ### Image lines -/

/-- What reads as the digit `d` is how `d` is printed (R88). -/
theorem hexDigit_eq_some {c : Char} {d : Nat} (h : hexDigit c = some d) : d < 16 ∧ c = hexChar d := by
  have hc : Char.ofNat c.toNat = c := Char.ofNat_toNat c
  unfold hexDigit at h
  split at h
  · cases h
    refine ⟨by omega, ?_⟩
    rw [hexChar, if_pos (by omega), ← hc]
    congr 1
    simp only [hc]
    omega
  · split at h
    · cases h
      refine ⟨by omega, ?_⟩
      rw [hexChar, if_neg (by omega), ← hc]
      congr 1
      simp only [hc]
      omega
    · cases h

theorem hexNumber_cons_eq_some {acc n : Nat} {c : Char} {l : List Char} (h : hexNumber acc (c :: l) = some n) :
    ∃ d < 16, c = hexChar d ∧ hexNumber (acc * 16 + d) l = some n := by
  cases hd : hexDigit c with
  | none => simp [hexNumber, hd] at h
  | some d =>
    obtain ⟨hlt, hc⟩ := hexDigit_eq_some hd
    exact ⟨d, hlt, hc, by simpa [hexNumber, hd] using h⟩

/-- Six digits are the text of the word they read as. -/
theorem eq_renderWord_of_hexNumber {l : List Char} {n : Nat} (hlen : l.length = 6) (h : hexNumber 0 l = some n) :
    l = renderWord (BitVec.ofNat 24 n) := by
  obtain ⟨c0, c1, c2, c3, c4, c5, rfl⟩ : ∃ c0 c1 c2 c3 c4 c5, l = [c0, c1, c2, c3, c4, c5] := by
    match l, hlen with
    | [c0, c1, c2, c3, c4, c5], _ => exact ⟨c0, c1, c2, c3, c4, c5, rfl⟩
  obtain ⟨d0, h0, rfl, hn0⟩ := hexNumber_cons_eq_some h
  obtain ⟨d1, h1, rfl, hn1⟩ := hexNumber_cons_eq_some hn0
  obtain ⟨d2, h2, rfl, hn2⟩ := hexNumber_cons_eq_some hn1
  obtain ⟨d3, h3, rfl, hn3⟩ := hexNumber_cons_eq_some hn2
  obtain ⟨d4, h4, rfl, hn4⟩ := hexNumber_cons_eq_some hn3
  obtain ⟨d5, h5, rfl, hn5⟩ := hexNumber_cons_eq_some hn4
  simp only [hexNumber_nil, Option.some.injEq] at hn5
  have hn : n % 2 ^ 24 = n := Nat.mod_eq_of_lt (by omega)
  simp only [renderWord, BitVec.toNat_ofNat, hn, List.cons.injEq, and_true]
  refine ⟨?_, ?_, ?_, ?_, ?_, ?_⟩ <;> congr 1 <;> omega

/-- A line is read, or refused by name (R272). -/
theorem imageLine_cases (l : List Char) :
    (∃ w, l = renderWord w ∧ imageLine l = .ok w) ∨ imageLine l = .error (.malformedLine l) := by
  unfold imageLine
  split
  · rename_i hlen
    cases hn : hexNumber 0 l with
    | none => exact .inr rfl
    | some n => exact .inl ⟨_, eq_renderWord_of_hexNumber hlen hn, rfl⟩
  · exact .inr rfl

@[simp] theorem imageLine_renderWord (w : InstrWord) : imageLine (renderWord w) = .ok w := by
  simp [imageLine, hexNumber_renderWord]

theorem imageLine_eq_ok_iff {l : List Char} {w : InstrWord} : imageLine l = .ok w ↔ l = renderWord w := by
  constructor
  · intro h
    obtain ⟨v, hl, hv⟩ | he := imageLine_cases l
    · obtain rfl : v = w := Except.ok.inj (hv.symm.trans h)
      exact hl
    · rw [he] at h; cases h
  · rintro rfl
    exact imageLine_renderWord w

theorem imageLine_of_malformed {l : List Char} (h : ∀ w, l ≠ renderWord w) : imageLine l = .error (.malformedLine l) := by
  obtain ⟨w, hl, _⟩ | he := imageLine_cases l
  · exact absurd hl (h w)
  · exact he

/-- Settles O11: printing and reading a line are inverse. -/
theorem loaderAcceptsExactlyImageLines : Obligations.LoaderAcceptsExactlyImageLines :=
  fun _ => ⟨fun _ => imageLine_eq_ok_iff, imageLine_of_malformed⟩

/-! ### Image texts -/

@[simp] theorem imageWords_map_renderWord (ws : List InstrWord) : imageWords (ws.map renderWord) = .ok ws := by
  induction ws with
  | nil => rfl
  | cons w ws ih => simp [imageWords, ih]

theorem imageWords_of_malformed (ws : List InstrWord) {l : List Char} (h : ∀ w, l ≠ renderWord w)
    (rest : List (List Char)) :
    imageWords (ws.map renderWord ++ l :: rest) = .error (.malformedLine l) := by
  induction ws with
  | nil => simp [imageWords, imageLine_of_malformed h]
  | cons w ws ih => simp [imageWords, ih]

/-- An image text whose lines are all read is the text of the words read. -/
theorem eq_map_renderWord_of_imageWords {image : List (List Char)} {ws : List InstrWord}
    (h : imageWords image = .ok ws) : image = ws.map renderWord := by
  induction image generalizing ws with
  | nil => cases h; rfl
  | cons l image ih =>
    cases hl : imageLine l with
    | error e => simp [imageWords, hl] at h
    | ok w =>
      cases hw : imageWords image with
      | error e => simp [imageWords, hl, hw] at h
      | ok ws' =>
        obtain rfl : w :: ws' = ws := by simpa [imageWords, hl, hw] using h
        rw [List.map_cons, ← ih hw, ← imageLine_eq_ok_iff.mp hl]

/-! ### Booting -/

theorem boot_map_renderWord_of_le {ws : List InstrWord} (h : ws.length ≤ 21846) (p : Config.Params) (cin : List Word) :
    boot p (ws.map renderWord) cin = .ok (resetState p (placeWords 0 ws) cin) := by
  simp [boot, loadWords_of_le h]

theorem boot_map_renderWord_of_gt {ws : List InstrWord} (h : 21846 < ws.length) (p : Config.Params) (cin : List Word) :
    boot p (ws.map renderWord) cin = .error .imageTooLong := by
  simp [boot, loadWords_of_gt h]

theorem boot_of_malformed (ws : List InstrWord) {l : List Char} (h : ∀ w, l ≠ renderWord w) (rest : List (List Char))
    (p : Config.Params) (cin : List Word) :
    boot p (ws.map renderWord ++ l :: rest) cin = .error (.malformedLine l) := by
  simp [boot, imageWords_of_malformed ws h rest]

/-- An image that boots is the text of some words, which stand in the memory (R271). -/
theorem boot_eq_ok {p : Config.Params} {image : List (List Char)} {cin : List Word} {s : State}
    (h : boot p image cin = .ok s) :
    ∃ ws, image = ws.map renderWord ∧ s = resetState p (placeWords 0 ws) cin := by
  cases hw : imageWords image with
  | error e => simp [boot, hw] at h
  | ok ws =>
    cases hm : loadWords ws with
    | error e => simp [boot, hw, hm] at h
    | ok m =>
      obtain rfl : resetState p m cin = s := by simpa [boot, hw, hm] using h
      exact ⟨ws, eq_map_renderWord_of_imageWords hw, by rw [loadWords_eq_ok hm]⟩

/-- The first word of an image stands where `pc` starts. -/
theorem cell_pc_of_boot (p : Config.Params) (w : InstrWord) (ws : List InstrWord) (cin : List Word) :
    (resetState p (placeWords 0 (w :: ws)) cin).cell (resetState p (placeWords 0 (w :: ws)) cin).pc = some w := rfl

/-- Settles O12: an image boots exactly when it is the text of at most 21846 words, and the first is at address 0. -/
theorem bootedRunStartsAtFirstWord : Obligations.BootedRunStartsAtFirstWord := by
  refine fun p cin => ⟨fun image s h => ?run,
    ⟨_, boot_map_renderWord_of_le (ws := []) (by simp) p cin, step_of_absent rfl rfl⟩,
    fun words => ⟨fun hle => ⟨_, boot_map_renderWord_of_le hle p cin⟩, fun hgt => boot_map_renderWord_of_gt hgt p cin,
      fun l rest hl => boot_of_malformed words hl rest p cin⟩⟩
  case run =>
    obtain ⟨ws, rfl, rfl⟩ := boot_eq_ok h
    refine ⟨rfl, rfl, rfl, rfl, fun line rest w himage hline => ?_⟩
    cases ws with
    | nil => cases himage
    | cons v ws =>
      obtain ⟨rfl, _⟩ := List.cons.inj himage
      obtain rfl : v = w := by simpa using hline
      have hpc := cell_pc_of_boot p v ws cin
      exact ⟨fun i => step_of_decode rfl hpc, fun e => step_of_illegal rfl hpc⟩

end Sys2Proof.Machine
end

section
/-! PROOFS. The assembler (30_encoding.md R95 to R107): what pass 1 binds a label to, and that pass 2 makes one word for each
instruction line, which decodes and whose operand field holds no reserved value. -/

namespace Sys2Proof.Machine

/-! ### Pass 1 -/

/-- Is the line an instruction? -/
def SourceLine.isInstr : SourceLine → Bool
  | .instr _ _ => true
  | .label _ => false

/-- Is the line an instruction that pass 1 counts: any but HALT (R104)? -/
def SourceLine.isCounted : SourceLine → Bool
  | .instr t _ => t != haltName
  | .label _ => false

/-- A label definition is added to the table of the lines after it, where it is not bound. -/
theorem labelTable_label {index : Nat} {m : List Char} {lines : List SourceLine} {table : List (List Char × Nat)}
    (h : labelTable index (.label m :: lines) = .ok table) :
    ∃ later, labelTable index lines = .ok later ∧ later.lookup m = none ∧ table = (m, index * 3) :: later := by
  cases hl : labelTable index lines with
  | error e => simp [labelTable, hl] at h
  | ok later =>
    simp only [labelTable, hl] at h
    split at h
    · cases h
    · rename_i hnone
      cases h
      exact ⟨later, rfl, Option.not_isSome_iff_eq_none.mp hnone, rfl⟩

/-- Pass 1 from any index: a label is bound to 3 times the index and the counted lines before it (R103). -/
theorem lookup_labelTable {index : Nat} {pre post : List SourceLine} {n : List Char} {table : List (List Char × Nat)}
    (h : labelTable index (pre ++ .label n :: post) = .ok table) :
    table.lookup n = some (3 * (index + pre.countP SourceLine.isCounted)) := by
  induction pre generalizing index table with
  | nil =>
    obtain ⟨later, _, _, rfl⟩ := labelTable_label h
    simp [mul_comm]
  | cons x pre ih =>
    cases x with
    | instr t o =>
      rw [ih h, List.countP_cons]
      by_cases ht : t = haltName
      · simp [SourceLine.isCounted, countsInPassOne, ht]
      · simp [SourceLine.isCounted, countsInPassOne, ht]
        omega
    | label m =>
      obtain ⟨later, hlater, hm, rfl⟩ := labelTable_label h
      have hn := ih hlater
      have hne : (n == m) = false := by
        rw [beq_eq_false_iff_ne]
        rintro rfl
        simp [hm] at hn
      rw [List.lookup_cons, hne, hn]
      simp [SourceLine.isCounted]

theorem countP_isCounted_eq {lines : List SourceLine} (h : ∀ o, SourceLine.instr haltName o ∉ lines) :
    lines.countP SourceLine.isCounted = lines.countP SourceLine.isInstr := by
  refine List.countP_congr fun x hx => ?_
  cases x with
  | label n => rfl
  | instr t o =>
    have ht : t ≠ haltName := fun he => h o (he ▸ hx)
    simp [SourceLine.isCounted, SourceLine.isInstr, ht]

/-- Settles O59: `lookup_labelTable` at index 0; without a HALT line every instruction line counts. -/
theorem labelAddressesCountLines : Obligations.LabelAddressesCountLines := by
  intro pre post n table h
  have hn : table.lookup n = some (3 * pre.countP SourceLine.isCounted) := by simpa using lookup_labelTable h
  exact ⟨hn, fun hhalt => countP_isCounted_eq hhalt ▸ hn⟩

/-! ### Pass 2 -/

theorem mem_of_lookup {α β : Type} [BEq α] [LawfulBEq α] {l : List (α × β)} {a : α} {b : β} (h : l.lookup a = some b) :
    (a, b) ∈ l := by
  obtain ⟨l₁, l₂, hl, _⟩ := List.lookup_eq_some_iff.mp h
  simp [hl]

theorem regNameId_bounds {t : List Char} {r : Nat} (h : regNameId t = some r) : 1 ≤ r ∧ r ≤ 5 := by
  unfold regNameId at h
  have hmem := mem_of_lookup h
  simp only [List.mem_cons, Prod.mk.injEq, List.not_mem_nil, or_false] at hmem
  omega

/-- A mnemonic names one opcode, whatever the mode and the operand, and leaves those as they are. -/
def KeepsFields (mk : Mode → Word → Instr) : Prop :=
  ∀ (m : Mode) (k : Word), (mk m k).opcode = (mk .immediate 0#16).opcode ∧ (mk m k).mode = m ∧ (mk m k).operand = k

theorem mnemonics_keepFields : ∀ e ∈ mnemonics, KeepsFields e.2 := by
  intro e he
  fin_cases he <;> exact fun _ _ => ⟨rfl, rfl, rfl⟩

/-- A bracketed operand in a register mode is one of the five register names. -/
theorem classifyBracket_register {whole inner : List Char} {m : Mode} {n : Nat}
    (h : classifyBracket whole inner = .ok (m, n)) (hm : m = .register ∨ m = .registerIndirect) : 1 ≤ n ∧ n ≤ 5 := by
  unfold classifyBracket at h
  split at h
  · split at h
    · rename_i r hr
      cases h
      exact regNameId_bounds hr
    · split at h
      · split at h <;> cases h
        simp at hm
      · cases h
  · cases h

theorem classifyBare_register {labels : List (List Char × Nat)} {t : List Char} {m : Mode} {n : Nat}
    (h : classifyBare labels t = .ok (m, n)) (hm : m = .register ∨ m = .registerIndirect) : 1 ≤ n ∧ n ≤ 5 := by
  unfold classifyBare at h
  split at h
  · rename_i r hr
    cases h
    exact regNameId_bounds hr
  · split at h
    · split at h <;> cases h
      simp at hm
    · split at h <;> cases h
      simp at hm

/-- The classifier gives modes 1 and 2 to register names only (R98). -/
theorem classifyOperand_register {labels : List (List Char × Nat)} {o : Option (List Char)} {m : Mode} {n : Nat}
    (h : classifyOperand labels o = .ok (m, n)) (hm : m = .register ∨ m = .registerIndirect) : 1 ≤ n ∧ n ≤ 5 := by
  unfold classifyOperand at h
  split at h
  · cases h
    simp at hm
  · split at h
    · cases h
      simp at hm
    · cases h
    · exact classifyBracket_register h hm
    · exact classifyBare_register h hm

/-- An encoded line: its mnemonic's operation, its classified operand, and the word of both. -/
theorem encodeLine_ok {labels : List (List Char × Nat)} {t : List Char} {o : Option (List Char)} {w : InstrWord}
    (h : encodeLine labels t o = .ok w) :
    ∃ mk m n, mnemonics.lookup t = some mk ∧ classifyOperand labels o = .ok (m, n) ∧
      encodeTriple (mk .immediate 0#16).opcode.toNat m.toBits.toNat n = .ok w := by
  unfold encodeLine at h
  cases hmk : mnemonics.lookup t with
  | none => simp [hmk] at h
  | some mk =>
    cases hop : classifyOperand labels o with
    | error e => simp [hmk, hop] at h
    | ok mn =>
      obtain ⟨m, n⟩ := mn
      simp only [hmk, hop] at h
      split at h
      · rename_i v hv
        cases h
        exact ⟨mk, m, n, rfl, rfl, hv⟩
      · cases h

/-- The word of three field values decodes to the operation with that opcode. -/
theorem decode_of_encodeTriple {mk : Mode → Word → Instr} (hmk : KeepsFields mk) {m : Mode} {n : Nat} {w : InstrWord}
    (h : encodeTriple (mk .immediate 0#16).opcode.toNat m.toBits.toNat n = .ok w) :
    decode w = .ok (mk m (operandField w)) ∧ (operandField w).toNat = n := by
  have hfields := (encodeTriple_eq_ok_iff _ _ _ _).mp h
  simp only [decodeTriple, Prod.mk.injEq] at hfields
  obtain ⟨ho, hm, hk⟩ := hfields
  obtain ⟨hopcode, hmode, hoperand⟩ := hmk m (operandField w)
  refine ⟨decode_eq_ok_iff.mpr ?_, hk⟩
  rw [encode, hopcode, hmode, hoperand, ← BitVec.eq_of_toNat_eq ho, ← BitVec.eq_of_toNat_eq hm, packFields_fields]

theorem operandLegal_of {i : Instr}
    (h : i.mode = .register ∨ i.mode = .registerIndirect → namesRegister i.operand = true) : i.operandLegal = true := by
  cases hu : i.usesRegisterId with
  | false => simp [Instr.operandLegal, hu]
  | true =>
    obtain ⟨_, _, hm⟩ := (usesRegisterId_iff i).mp hu
    simp [Instr.operandLegal, h hm]

/-- A word that decodes to an instruction with no reserved operand value (R93). -/
def LegalWord (w : InstrWord) : Prop := ∃ i, decode w = .ok i ∧ i.operandLegal = true

theorem encodeLine_legal {labels : List (List Char × Nat)} {t : List Char} {o : Option (List Char)} {w : InstrWord}
    (h : encodeLine labels t o = .ok w) : LegalWord w := by
  obtain ⟨mk, m, n, hmk, hop, hw⟩ := encodeLine_ok h
  have hfields : KeepsFields mk := mnemonics_keepFields _ (mem_of_lookup hmk)
  obtain ⟨hdecode, hn⟩ := decode_of_encodeTriple hfields hw
  obtain ⟨_, hmode, hoperand⟩ := hfields m (operandField w)
  refine ⟨_, hdecode, operandLegal_of fun hm => ?_⟩
  rw [hmode] at hm
  have hbounds := classifyOperand_register hop hm
  simp [hoperand, namesRegister, hn, hbounds]

/-- A line of pass 2 adds its word to those of the lines after it. -/
theorem encodeLines_instr {labels : List (List Char × Nat)} {t : List Char} {o : Option (List Char)}
    {lines : List SourceLine} {words : List InstrWord} (h : encodeLines labels (.instr t o :: lines) = .ok words) :
    ∃ w later, encodeLine labels t o = .ok w ∧ encodeLines labels lines = .ok later ∧ words = w :: later := by
  cases hw : encodeLine labels t o with
  | error e => simp [encodeLines, hw] at h
  | ok w =>
    cases hl : encodeLines labels lines with
    | error e => simp [encodeLines, hw, hl] at h
    | ok later => exact ⟨w, later, rfl, rfl, by simpa [encodeLines, hw, hl, eq_comm] using h⟩

/-- Pass 2: one legal word for each instruction line (R105). -/
theorem encodeLines_ok {labels : List (List Char × Nat)} {lines : List SourceLine} {words : List InstrWord}
    (h : encodeLines labels lines = .ok words) :
    (∀ w ∈ words, LegalWord w) ∧ words.length = lines.countP SourceLine.isInstr := by
  induction lines generalizing words with
  | nil => cases h; simp
  | cons x lines ih =>
    cases x with
    | label n => simpa [SourceLine.isInstr] using ih h
    | instr t o =>
      obtain ⟨w, later, hw, hlater, rfl⟩ := encodeLines_instr h
      obtain ⟨hlegal, hlen⟩ := ih hlater
      exact ⟨List.forall_mem_cons.mpr ⟨encodeLine_legal hw, hlegal⟩, by
        rw [List.length_cons, List.countP_cons_of_pos rfl, hlen]⟩

theorem assembleWords_ok {source : List (List Char)} {words : List InstrWord} (h : assembleWords source = .ok words) :
    ∃ lines labels, classifyLines source = .ok lines ∧ encodeLines labels lines = .ok words := by
  cases hlines : classifyLines source with
  | error e => simp [assembleWords, hlines] at h
  | ok lines =>
    cases hlabels : labelTable 0 lines with
    | error e => simp [assembleWords, hlines, hlabels] at h
    | ok labels => exact ⟨lines, labels, rfl, by simpa [assembleWords, hlines, hlabels] using h⟩

theorem assemble_ok {source image : List (List Char)} (h : assemble source = .ok image) :
    ∃ words, assembleWords source = .ok words ∧ image = words.map renderWord := by
  cases hw : assembleWords source with
  | error e => simp [assemble, hw] at h
  | ok words => exact ⟨words, rfl, by simpa [assemble, hw, eq_comm] using h⟩

/-- Settles O60: pass 2 line by line, then the loader on the text of its words. -/
theorem assembledWordsAreLegal : Obligations.AssembledWordsAreLegal := by
  intro source image h
  obtain ⟨words, hwords, rfl⟩ := assemble_ok h
  obtain ⟨lines, labels, hlines, hencode⟩ := assembleWords_ok hwords
  obtain ⟨hlegal, hlen⟩ := encodeLines_ok hencode
  refine ⟨words, rfl, hlegal, fun lines' hlines' => ?_,
    fun p cin hle => ⟨_, boot_map_renderWord_of_le hle p cin, fun n => read_placeWords_zero⟩⟩
  obtain rfl : lines = lines' := Except.ok.inj (hlines.symm.trans hlines')
  exact hlen

end Sys2Proof.Machine
end
